-- ==== Sys2Proof/Word.lean ====
section
/-! DEFINITION. The word types of CRC32-POLY (00_scope.md rules R3, R4; 30_encoding.md rules R51, R55). -/

namespace Sys2Proof

/-- A checksum, a polynomial or a table entry: 32 unsigned bits (R3, R4). -/
abbrev Word := BitVec 32

/-- One input symbol, and also one table index: 8 bits (R3). -/
abbrev Byte := BitVec 8

/-- A command word: 68 bits (R51). -/
abbrev CmdWord := BitVec 68

/-- A response word: 34 bits (R55). -/
abbrev RspWord := BitVec 34

/-- The lookup table: 256 words of 32 bits (R3, R14). Its length is part of its type, so an 8-bit index is never
out of range (R31). -/
abbrev Table := Vector Word 256

end Sys2Proof
end

