-- ==== Sys2Proof/Config.lean ====
section
/-! DEFINITION. What the platform fixes, and the free values. -/

namespace Sys2Proof

/-- FREE VALUE (DESIGN CHOICE, log entry 2). `Config.freeWord k` is the `k`-th word drawn for a register that the
spec says holds no value: `POLY`, `CRC` and `TABLE[n]` after a hardware reset (10_state.md R22,
70_reset_and_hazards.md R141). It has no body, so nothing can be proved about which word it is. -/
opaque Config.freeWord : Nat → Word

/-- `BUFLEN_MAX`, the largest buffer length the platform can present (20_memory.md R33, decision D10): the spec's
default, the largest value of its range. No instruction reads it; Safety.lean's checks take it as an argument
(log entry 9). -/
def Config.bufLenMax : Word := 0xFFFFFFFF

end Sys2Proof
end

