-- ==== Sys2Proof/Syntax.lean ====
section
/-! DEFINITION. The seven commands of spec/opcode_table.json, with their operands as 30_encoding.md R54 forms them. -/

namespace Sys2Proof

/-- A command. Ignored fields of the command word are no operands (30_encoding.md R53), so they do not appear. -/
inductive Instr where
  /-- CONSTRUCT `<poly>` (40_construct.md R70): the polynomial, all 32 bits as given. -/
  | construct (poly : Word)
  /-- UPDATE_BYTE `<int>` (41_update.md R91): the byte `a[7:0]`. -/
  | updateByte (bt : Byte)
  /-- UPDATE_RANGE `<off>, <len>` (41_update.md R93): two unsigned 32-bit numbers. -/
  | updateRange (off len : Word)
  /-- UPDATE_ALL (41_update.md R94). -/
  | updateAll
  /-- VALUE (42_readout_reset.md R110). -/
  | value
  /-- RESET (42_readout_reset.md R111). Not the hardware reset (70_reset_and_hazards.md R144). -/
  | reset
  /-- POLYNOMIAL (42_readout_reset.md R112). -/
  | polynomial
  deriving DecidableEq, Repr

end Sys2Proof
end

