-- ==== Sys2Proof/WellFormed.lean ====
section
/-! DEFINITION. Which instructions and which command words are well formed. -/

namespace Sys2Proof

/-- Every instruction is well formed: an operand has exactly the width of its field, and no value of an operand is
excluded (40_construct.md R72 for the polynomial, 41_update.md R91 for the byte, 30_encoding.md R54 for `off` and
`len`, whose bounds check is part of the command's meaning and not of its form). -/
def Instr.wellFormed : Instr → Bool
  | .construct _ => true
  | .updateByte _ => true
  | .updateRange _ _ => true
  | .updateAll => true
  | .value => true
  | .reset => true
  | .polynomial => true

/-- The three fields of a command word are canonical if the opcode is one of the seven and every field the command
ignores is 0 (30_encoding.md R52, R53). A word that is not canonical is still legal if its opcode is. -/
def canonicalFields (op : BitVec 4) (a b : Word) : Bool :=
  match op.toNat with
  | 1 => b == 0
  | 2 => a.extractLsb' 8 24 == 0 && b == 0
  | 3 => true
  | 4 => a == 0 && b == 0
  | 5 => a == 0 && b == 0
  | 6 => a == 0 && b == 0
  | 7 => a == 0 && b == 0
  | _ => false

end Sys2Proof
end

