-- ==== Sys2Proof/Decode.lean ====
section
/-! DEFINITION. The decoder, total on all 2^68 command words, and the encoder (30_encoding.md R51 to R54, R58, R59). -/

namespace Sys2Proof

/-- Why a command word is no command. -/
inductive DecodeError where
  /-- The opcode is reserved: 0x0 or 0x8 to 0xF (30_encoding.md R58). -/
  | illegalCommand
  deriving DecidableEq, Repr

/-- `cmd[67:64]`, the operation code (R51). -/
def opField (w : CmdWord) : BitVec 4 := w.extractLsb' 64 4

/-- `cmd[63:32]`, the first operand (R51). -/
def aField (w : CmdWord) : Word := w.extractLsb' 32 32

/-- `cmd[31:0]`, the second operand (R51). -/
def bField (w : CmdWord) : Word := w.extractLsb' 0 32

/-- The command word with the given three fields: `op` in the high bits, then `a`, then `b` (R51). -/
def commandWord (op : BitVec 4) (a b : Word) : CmdWord := (op ++ a ++ b : BitVec (4 + 32 + 32))

/-- A canonical command word: 0 in every ignored field (R53). -/
def canonicalWord (w : CmdWord) : Bool := canonicalFields (opField w) (aField w) (bField w)

/-- The byte of a single-byte update, `a[7:0]`; `a[31:8]` is ignored (R54). -/
def byteOperand (a : Word) : Byte := a.extractLsb' 0 8

/-- The decode procedure of 30_encoding.md, total on any word. -/
def decode (w : CmdWord) : Except DecodeError Instr :=
  match (opField w).toNat with
  | 1 => .ok (.construct (aField w))
  | 2 => .ok (.updateByte (byteOperand (aField w)))
  | 3 => .ok (.updateRange (aField w) (bField w))
  | 4 => .ok .updateAll
  | 5 => .ok .value
  | 6 => .ok .reset
  | 7 => .ok .polynomial
  | _ => .error .illegalCommand

/-- The operation codes of R52. -/
def opcode : Instr → BitVec 4
  | .construct _ => 0x1
  | .updateByte _ => 0x2
  | .updateRange _ _ => 0x3
  | .updateAll => 0x4
  | .value => 0x5
  | .reset => 0x6
  | .polynomial => 0x7

/-- The canonical encoding: 0 in every ignored field (R53). -/
def encode (i : Instr) : CmdWord :=
  match i with
  | .construct poly => commandWord (opcode i) poly 0
  | .updateByte bt => commandWord (opcode i) (bt.setWidth 32) 0
  | .updateRange off len => commandWord (opcode i) off len
  | .updateAll => commandWord (opcode i) 0 0
  | .value => commandWord (opcode i) 0 0
  | .reset => commandWord (opcode i) 0 0
  | .polynomial => commandWord (opcode i) 0 0

/-- The command word whose bits are those of `w` below `nbits`, and 0 above. The command port has 68 wires, so bits
from 68 on are not carried (log entry 15). -/
def tableWord (nbits w : Nat) : CmdWord := BitVec.ofNat 68 (w % 2 ^ nbits)

/-- What the decoder reads from the table's numbering of a word (bit 0 is `cmd[0]`). -/
def decodeTableWord (nbits w : Nat) : Option Instr :=
  match decode (tableWord nbits w) with
  | .ok i => some i
  | .error _ => none

end Sys2Proof
end

