-- ==== Sys2Proof/Machine/State.lean ====
section
/-! DEFINITION. The state of CRC32-POLY as plain data (10_state.md R10), what its ports hold, and the reasons a step can stop. -/

namespace Sys2Proof.Machine

/-- The presented input buffer `BUF` as (index, byte) pairs: indices strictly rising, and no pair whose byte is what an
unlisted index reads as (20_memory.md R33; `Memory.wf` in Machine/Ops.lean; log entry 6). -/
abbrev Memory := List Host.Cell

/-- What the host puts on the command port for one command (30_encoding.md R50): the word, and the buffer with it. -/
structure Presented where
  /-- `cmd`, the 68-bit command word (R51). -/
  word : CmdWord
  /-- `buf_len`, the length `BUFLEN` of the buffer presented with this command. -/
  bufLen : Word
  /-- The bytes of that buffer. -/
  mem : Memory
  deriving DecidableEq, Repr

/-- One thing the host does to the engine (70_reset_and_hazards.md R150). -/
inductive HostEvent where
  /-- A command is issued and runs to its response (R50, 20_memory.md R42). -/
  | command (p : Presented)
  /-- `rst` is asserted, or power comes on, between two commands (R140). -/
  | hardwareReset
  /-- `rst` is asserted while the command `p` runs: the command is cut short and has no response (R140). -/
  | resetDuring (p : Presented)
  deriving DecidableEq, Repr

/-- The outcome a response word reports (30_encoding.md R56, 60_exceptions.md R120). -/
inductive Status where
  /-- The command completed. -/
  | ok
  /-- UPDATE_RANGE with `CFG = 1` and `off + len > BUFLEN` (R121). -/
  | boundsViolation
  /-- A command other than CONSTRUCT with `CFG = 0` (R122). -/
  | notConfigured
  /-- A reserved opcode (R123). -/
  | illegalCommand
  deriving DecidableEq, Repr

/-- The machine. `poly`, `table`, `crc` and `cfg` are the whole architectural state of one engine (R10); the others
hold what its ports hand in and out, and the model's count of drawn free values. -/
structure State where
  /-- `POLY`, the polynomial register (R11). -/
  poly : Word
  /-- `TABLE[0..255]`, the lookup table (R14). -/
  table : Table
  /-- `CRC`, the running checksum as stored and as read out (R12). -/
  crc : Word
  /-- `CFG`, set when a CONSTRUCT has completed since the last hardware reset (R16). -/
  cfg : Bool
  /-- `buf_len`, the length `BUFLEN` of the buffer now presented (30_encoding.md R50). -/
  bufLen : Word
  /-- The bytes of the buffer now presented (20_memory.md R33). The engine never writes it (R35). -/
  mem : Memory
  /-- What the host does next, oldest first (20_memory.md R42, 70_reset_and_hazards.md R150; log entry 4). -/
  pending : List HostEvent
  /-- The response words given so far, oldest first (30_encoding.md R55; log entry 12). No command reads them (R128). -/
  responses : List RspWord
  /-- The MODEL's own count of free values drawn by hardware resets (log entry 2). -/
  draws : Nat
  deriving DecidableEq, Repr

/-- Why a step of the MACHINE stops with a fault: never. The spec's three faults are delivered as response words and
the engine goes on (60_exceptions.md R120, R127, R129; log entry 1), and it has no other fault (R124). -/
inductive Fault where
  deriving DecidableEq, Repr

/-- Why a step is refused. -/
inductive Refusal where
  /-- Raised only by an arm of `exec` that gives its command no meaning yet; no arm does so now. Safe: the model stops
  where the hardware goes on. -/
  | notModelled (mnemonic : String)
  deriving DecidableEq, Repr

/-- The 256 free values from the `d`-th on, for a table that holds no value. -/
def freeTable (d : Nat) : Table :=
  ⟨((List.range 256).map fun n => Config.freeWord (d + n)).toArray, by simp⟩

/-- The machine just after hardware reset (10_state.md R22, 70_reset_and_hazards.md R141): `CFG = 0`; `POLY`, `CRC` and
`TABLE` are free values, for the spec gives them none (log entry 2); nothing presented, pending or answered yet (log
entry 3). -/
def State.reset : State where
  poly := Config.freeWord 0
  table := freeTable 2
  crc := Config.freeWord 1
  cfg := false
  bufLen := 0
  mem := []
  pending := []
  responses := []
  draws := 258

end Sys2Proof.Machine
end

