-- ==== Sys2Proof/Machine/Flags.lean ====
section
/-! DEFINITION. Status codes and the packing of the response word (30_encoding.md R55 to R57, 60_exceptions.md R120). -/

namespace Sys2Proof.Machine

/-- The status codes of R56 and R120. -/
def statusCode : Status → BitVec 2
  | .ok => 0
  | .boundsViolation => 1
  | .notConfigured => 2
  | .illegalCommand => 3

/-- The response word: `status` in `rsp[33:32]`, `data` in `rsp[31:0]` (R55). -/
def responseWord (st : Status) (data : Word) : RspWord := (statusCode st ++ data : BitVec (2 + 32))

/-- `rsp[33:32]` (R55). -/
def statusField (r : RspWord) : BitVec 2 := r.extractLsb' 32 2

/-- `rsp[31:0]` (R55). -/
def dataField (r : RspWord) : Word := r.extractLsb' 0 32

end Sys2Proof.Machine
end

