-- ==== Sys2Proof/Machine/Ops.lean ====
section
/-! DEFINITION. The named operations over the buffer, the registers and the response port; delivering a fault; hardware reset. -/

namespace Sys2Proof.Machine

/-! ## The input buffer -/

/-- What an index that is not listed reads as (log entry 6): the list names only the bytes that are not 0x00. -/
def unlistedByte : Byte := 0x00

/-- `MemRead(a, 1)`: the byte at index `a` (20_memory.md R33). No side effect (R35). -/
def Memory.read : Memory → Nat → Byte
  | [], _ => unlistedByte
  | (k, b) :: rest, a => if k = a then b else Memory.read rest a

/-- Entry `(a, b)` in front of `rest`, left out if it is what an unlisted index reads as. -/
def consCell (a : Nat) (b : Byte) (rest : Memory) : Memory :=
  if b = unlistedByte then rest else (a, b) :: rest

/-- The HOST's change of one byte of the buffer it presents next. The engine never writes (20_memory.md R35). -/
def Memory.write : Memory → Nat → Byte → Memory
  | [], a, b => consCell a b []
  | (k, c) :: rest, a, b =>
    if a < k then consCell a b ((k, c) :: rest)
    else if a = k then consCell a b rest
    else (k, c) :: Memory.write rest a b

/-- The indices rise strictly from `lo` on, and no entry is what an unlisted index reads as. -/
def canonicalFrom : Nat → Memory → Bool
  | _, [] => true
  | lo, (k, b) :: rest => decide (lo ≤ k) && decide (b ≠ unlistedByte) && canonicalFrom (k + 1) rest

/-- The canonical form of a buffer's contents: equal buffers are equal lists. -/
def Memory.wf (m : Memory) : Bool := canonicalFrom 0 m

/-- The contents of a buffer whose byte `i` is the `i`-th of `bytes`, placed from index `base` on. -/
def Memory.ofBytesFrom : Nat → List Byte → Memory
  | _, [] => []
  | base, b :: rest => Memory.write (Memory.ofBytesFrom (base + 1) rest) base b

/-- The contents of the buffer `bytes`, indexed from 0 (20_memory.md R33). -/
def Memory.ofBytes (bytes : List Byte) : Memory := Memory.ofBytesFrom 0 bytes

/-- The `len` bytes at indices `off`, `off + 1`, ..., in ascending order, each once (20_memory.md R34). The sum is
formed in the natural numbers. -/
def Memory.bytes (m : Memory) (off len : Nat) : List Byte :=
  (List.range len).map fun i => Memory.read m (off + i)

/-! ## The table -/

/-- `TABLE[i]`: the whole word at an 8-bit index, which cannot be out of range (20_memory.md R31, R32). -/
def tableRead (t : Table) (i : Byte) : Word := t[i.toNat]'i.isLt

/-- The table whose entry `n` is `f n`. -/
def tableOf (f : Byte → Word) : Table :=
  ⟨((List.range 256).map fun n => f (BitVec.ofNat 8 n)).toArray, by simp⟩

/-! ## The registers -/

/-- `CRC <- v`. -/
def State.writeCrc (v : Word) (s : State) : State := { s with crc := v }

/-- `POLY <- p`, `TABLE <- t`, `CRC <- 0` and `CFG <- 1` in one atomic step (40_construct.md R70, R74). -/
def State.load (p : Word) (t : Table) (s : State) : State :=
  { s with poly := p, table := t, crc := 0, cfg := true }

/-! ## The ports -/

/-- The buffer presented with a command stands on the buffer port (30_encoding.md R50). -/
def State.present (p : Presented) (s : State) : State := { s with bufLen := p.bufLen, mem := p.mem }

/-- One response word is given (30_encoding.md R55). -/
def State.respond (st : Status) (data : Word) (s : State) : State :=
  { s with responses := s.responses ++ [responseWord st data] }

/-- A command completes: `respond (status = OK, data)`. -/
def complete (data : Word) (s : State) : Host.Outcome State Fault Refusal :=
  .next (s.respond .ok data)

/-- `raise Fault(code)`: the command ends at once, changes no state, and its response word is `(code, 0)`. Nothing is
saved, no mode changes, control goes nowhere; the next command is accepted from the unchanged state (60_exceptions.md
R127, R128, R129). There is no return from a fault to model, for there is no handler (R129). -/
def raise (st : Status) (s : State) : Host.Outcome State Fault Refusal :=
  .next (s.respond st 0)

/-- The gate of every command but CONSTRUCT: NotConfigured while `CFG = 0` (60_exceptions.md R122, R126). -/
def ifConfigured (s : State) (run : Host.Outcome State Fault Refusal) : Host.Outcome State Fault Refusal :=
  if s.cfg then run else raise .notConfigured s

/-- Hardware reset (70_reset_and_hazards.md R140): `CFG <- 0`, and `POLY`, `CRC` and `TABLE` are new free values (log
entry 2). No response word. -/
def State.hardwareReset (s : State) : State :=
  { s with
    poly := Config.freeWord s.draws
    crc := Config.freeWord (s.draws + 1)
    table := freeTable (s.draws + 2)
    cfg := false
    draws := s.draws + 258 }

end Sys2Proof.Machine
end

