-- ==== Sys2Proof/Machine/Generator.lean ====
section
/-! DEFINITION. The block TGEN: polynomial to 256 x 32 table (00_scope.md R7, R8; 40_construct.md R71). -/

namespace Sys2Proof.Machine

/-- `STEP1(P, c)` (R7). The test is made on the value before the shift; the shift is logical. -/
def step1 (p c : Word) : Word := if c.getLsbD 0 then p ^^^ (c >>> 1) else c >>> 1

/-- `k` bit steps in sequence, from `c`. -/
def bitSteps (p : Word) : Nat → Word → Word
  | 0, c => c
  | k + 1, c => bitSteps p k (step1 p c)

/-- `TGEN(P, n)`: exactly eight bit steps from `zext_32(n)` (R8). -/
def tgen (p : Word) (n : Byte) : Word := bitSteps p 8 (n.setWidth 32)

/-- The whole table of a polynomial: `TABLE[n] = TGEN(P, n)` for `n = 0 .. 255` (R71). -/
def buildTable (p : Word) : Table := tableOf (tgen p)

end Sys2Proof.Machine
end

