-- ==== Sys2Proof/Machine/Construct.lean ====
section
/-! DEFINITION. The meaning of CONSTRUCT (40_construct.md). -/

namespace Sys2Proof.Machine

/-- CONSTRUCT (R70): legal in every state, never faults (R72), replaces everything (R74). -/
def execConstruct (poly : Word) (s : State) : Host.Outcome State Fault Refusal :=
  complete 0 (s.load poly (buildTable poly))

end Sys2Proof.Machine
end

