-- ==== Sys2Proof/Machine/Readout.lean ====
section
/-! DEFINITION. The meanings of VALUE, RESET and POLYNOMIAL (42_readout_reset.md). -/

namespace Sys2Proof.Machine

/-- VALUE (R110): the stored register, no complement (90_conflicts.md C1). -/
def execValue (s : State) : Host.Outcome State Fault Refusal :=
  ifConfigured s (complete s.crc s)

/-- RESET (R111): only `CRC` returns to 0. -/
def execReset (s : State) : Host.Outcome State Fault Refusal :=
  ifConfigured s (complete 0 (s.writeCrc 0))

/-- POLYNOMIAL (R112): the operand of the latest CONSTRUCT. -/
def execPolynomial (s : State) : Host.Outcome State Fault Refusal :=
  ifConfigured s (complete s.poly s)

end Sys2Proof.Machine
end

