-- ==== Sys2Proof/Machine/Datapath.lean ====
section
/-! DEFINITION. The block UPD: the reflected running-update datapath (00_scope.md R9, 41_update.md R90). -/

namespace Sys2Proof.Machine

/-- `idx = (c ^ zext_32(b))[7:0]` (20_memory.md R32). -/
def tableIndex (c : Word) (b : Byte) : Byte := (c ^^^ b.setWidth 32).extractLsb' 0 8

/-- One pass of R90's loop on the working value: `TABLE[idx] ^ (c >> 8)`. -/
def foldByte (t : Table) (c : Word) (b : Byte) : Word := tableRead t (tableIndex c b) ^^^ (c >>> 8)

/-- `UPDB(T, crc, b)`, the per-byte update of the stored checksum (R9). -/
def updb (t : Table) (crc : Word) (b : Byte) : Word := ~~~ foldByte t (~~~ crc) b

/-- `UPDSEQ(T, crc, bytes)`: complement, fold the bytes in order, complement back (R90). -/
def updSeq (t : Table) (crc : Word) (bytes : List Byte) : Word := ~~~ bytes.foldl (foldByte t) (~~~ crc)

end Sys2Proof.Machine
end

