-- ==== Sys2Proof/Machine/Operands.lean ====
section
/-! DEFINITION. The operand forms that read more than the command word: a range of the buffer and the whole buffer (30_encoding.md R54). -/

namespace Sys2Proof.Machine

/-- The bounds check of 41_update.md R96: `off + len <= BUFLEN`, in the natural numbers, never modulo 2^32. -/
def rangeInside (off len bufLen : Word) : Bool := decide (off.toNat + len.toNat ≤ bufLen.toNat)

/-- The bytes UPDATE_RANGE folds: `BUF[off], ..., BUF[off+len-1]` (R93, 20_memory.md R34). -/
def State.rangeBytes (s : State) (off len : Word) : List Byte := s.mem.bytes off.toNat len.toNat

/-- The bytes UPDATE_ALL folds: `BUF[0], ..., BUF[BUFLEN-1]` (R94). -/
def State.allBytes (s : State) : List Byte := s.mem.bytes 0 s.bufLen.toNat

end Sys2Proof.Machine
end

