-- ==== Sys2Proof/Machine/Update.lean ====
section
/-! DEFINITION. The meanings of UPDATE_BYTE, UPDATE_RANGE and UPDATE_ALL (41_update.md). -/

namespace Sys2Proof.Machine

/-- The running checksum becomes that of `bytes` folded in, and the command completes (R90). -/
def foldBytes (bytes : List Byte) (s : State) : Host.Outcome State Fault Refusal :=
  complete 0 (s.writeCrc (updSeq s.table s.crc bytes))

/-- UPDATE_BYTE (R91). -/
def execUpdateByte (bt : Byte) (s : State) : Host.Outcome State Fault Refusal :=
  ifConfigured s (complete 0 (s.writeCrc (updb s.table s.crc bt)))

/-- UPDATE_RANGE (R93): the bounds are checked once, before any byte is read (R96). -/
def execUpdateRange (off len : Word) (s : State) : Host.Outcome State Fault Refusal :=
  ifConfigured s
    (if rangeInside off len s.bufLen then foldBytes (s.rangeBytes off len) s else raise .boundsViolation s)

/-- UPDATE_ALL (R94). -/
def execUpdateAll (s : State) : Host.Outcome State Fault Refusal :=
  ifConfigured s (foldBytes s.allBytes s)

end Sys2Proof.Machine
end

