-- ==== Sys2Proof/Machine/Dispatch.lean ====
section
/-! DEFINITION. One arm per command: a decoded command runs by its meaning (30_encoding.md R52). -/

namespace Sys2Proof.Machine

def exec (i : Instr) (s : State) : Host.Outcome State Fault Refusal :=
  match i with
  | .construct poly => Sys2Proof.Machine.execConstruct poly s
  | .updateByte bt => Sys2Proof.Machine.execUpdateByte bt s
  | .updateRange off len => Sys2Proof.Machine.execUpdateRange off len s
  | .updateAll => Sys2Proof.Machine.execUpdateAll s
  | .value => Sys2Proof.Machine.execValue s
  | .reset => Sys2Proof.Machine.execReset s
  | .polynomial => Sys2Proof.Machine.execPolynomial s

end Sys2Proof.Machine
end

