-- ==== Sys2Proof/Machine/Port.lean ====
section
/-! DEFINITION. The command port: taking the host's next event and serving it (30_encoding.md R50, 60_exceptions.md R126). -/

namespace Sys2Proof.Machine

/-- One command: its buffer is presented, the opcode is examined before anything else (R126), and the command runs. -/
def serveCommand (p : Presented) (s : State) : Host.Outcome State Fault Refusal :=
  match decode p.word with
  | .ok i => exec i (s.present p)
  | .error .illegalCommand => raise .illegalCommand (s.present p)

/-- One event of the host (70_reset_and_hazards.md R150). A command that a hardware reset cuts short leaves nothing
but the reset, and no response word (R140; log entry 5). -/
def serve (e : HostEvent) (s : State) : Host.Outcome State Fault Refusal :=
  match e with
  | .command p => serveCommand p s
  | .hardwareReset => .next s.hardwareReset
  | .resetDuring p => .next (s.present p).hardwareReset

/-- The oldest event is served. With none the engine is idle: nothing happens except in response to a command
(60_exceptions.md R125, R133). -/
def servePending (s : State) : Host.Outcome State Fault Refusal :=
  match s.pending with
  | [] => .next s
  | e :: rest => serve e { s with pending := rest }

/-- `s` with the command word `w` as the next event, and the buffer that is on the port presented with it. -/
def State.issue (w : CmdWord) (s : State) : State :=
  { s with pending := .command ⟨w, s.bufLen, s.mem⟩ :: s.pending }

end Sys2Proof.Machine
end

