-- ==== Sys2Proof/Machine/Step.lean ====
section
/-! DEFINITION. One step of the machine: one event of the host, which for a command is the whole command (20_memory.md R42). -/

namespace Sys2Proof.Machine

def step (s : State) : Host.Outcome State Fault Refusal := servePending s

/-- The table's word as the very next command, with the buffer now on the port (log entry 4). -/
def State.withFetchWord (s : State) (nbits w : Nat) : State := s.issue (tableWord nbits w)

end Sys2Proof.Machine
end

