-- ==== Sys2Proof/Machine/Program.lean ====
section
/-! DEFINITION. Command sequences as 30_encoding.md writes them (R60), and its pseudo-operations (R61). -/

namespace Sys2Proof.Machine

/-- One line of a command sequence (R60), a pseudo-operation included (R61). Operands are numbers as written. -/
inductive Line where
  /-- `CONSTRUCT <poly>`. -/
  | construct (poly : Nat)
  /-- `UPDATE_BYTE <int>`, low 8 bits used. -/
  | updateByte (int : Nat)
  /-- `UPDATE_RANGE <off>, <len>`. -/
  | updateRange (off len : Nat)
  /-- `UPDATE_ALL`. -/
  | updateAll
  /-- `VALUE`. -/
  | value
  /-- `RESET`. -/
  | reset
  /-- `POLYNOMIAL`. -/
  | polynomial
  /-- `.buf <b0> ... <bN-1>`: from here on the presented buffer is these bytes. -/
  | buf (bytes : List Byte)
  /-- `UPDATE_BYTES b0 ... bk-1` (R61). -/
  | updateBytes (bytes : List Byte)
  /-- `CHECKSUM <poly> ; b0 ... bk-1` (R61). -/
  | checksum (poly : Nat) (bytes : List Byte)
  deriving DecidableEq, Repr

/-- A number operand is a 32-bit number, and a buffer's length is one too (R60, 20_memory.md R33). -/
def Line.wf : Line → Bool
  | .construct poly => decide (poly < 2 ^ 32)
  | .updateByte int => decide (int < 2 ^ 32)
  | .updateRange off len => decide (off < 2 ^ 32) && decide (len < 2 ^ 32)
  | .updateAll => true
  | .value => true
  | .reset => true
  | .polynomial => true
  | .buf bytes => decide (bytes.length < 2 ^ 32)
  | .updateBytes _ => true
  | .checksum poly _ => decide (poly < 2 ^ 32)

/-- The commands a line stands for (R60, R61); a directive stands for none. -/
def Line.commands : Line → List Instr
  | .construct poly => [.construct (BitVec.ofNat 32 poly)]
  | .updateByte int => [.updateByte (BitVec.ofNat 8 int)]
  | .updateRange off len => [.updateRange (BitVec.ofNat 32 off) (BitVec.ofNat 32 len)]
  | .updateAll => [.updateAll]
  | .value => [.value]
  | .reset => [.reset]
  | .polynomial => [.polynomial]
  | .buf _ => []
  | .updateBytes bytes => bytes.map .updateByte
  | .checksum poly bytes => .construct (BitVec.ofNat 32 poly) :: (bytes.map .updateByte ++ [.value])

/-- The buffer presented from a line on, given the one presented before it (R60). -/
def Line.bufferAfter (buffer : List Byte) : Line → List Byte
  | .buf bytes => bytes
  | .construct _ => buffer
  | .updateByte _ => buffer
  | .updateRange _ _ => buffer
  | .updateAll => buffer
  | .value => buffer
  | .reset => buffer
  | .polynomial => buffer
  | .updateBytes _ => buffer
  | .checksum _ _ => buffer

/-- What the host presents for one command while `buffer` is the presented buffer: the canonical word (30_encoding.md
R53), the buffer's true length (70_reset_and_hazards.md R148 (c)) and its bytes. -/
def presentedWith (buffer : List Byte) (i : Instr) : Presented :=
  ⟨encode i, BitVec.ofNat 32 buffer.length, Memory.ofBytes buffer⟩

/-- The host's events for a command sequence that starts with `buffer` presented. -/
def assemble : List Byte → List Line → List HostEvent
  | _, [] => []
  | buffer, line :: rest =>
    (line.commands.map fun i => HostEvent.command (presentedWith (line.bufferAfter buffer) i)) ++
      assemble (line.bufferAfter buffer) rest

end Sys2Proof.Machine
end

