-- ==== Sys2Proof/Safety.lean ====
section
/-! DEFINITION. What the claims speak of: legal hosts, runs without a fault, the machine's invariants, runs. -/

namespace Sys2Proof.Safety

open Sys2Proof.Machine

/-- What the host presents is legal on a platform with the given `BUFLEN_MAX` (20_memory.md R33; 70_reset_and_hazards.md
R148 (c), R150): a length of at most `BUFLEN_MAX`, contents in canonical form, and no byte at or above the length. -/
def presentedLegal (bufLenMax : Word) (bufLen : Word) (mem : Memory) : Bool :=
  decide (bufLen.toNat ≤ bufLenMax.toNat) && mem.wf && mem.all fun c => decide (c.1 < bufLen.toNat)

/-- An event of a host that keeps its duties of R150. -/
def eventLegal (bufLenMax : Word) : HostEvent → Bool
  | .command p => presentedLegal bufLenMax p.bufLen p.mem
  | .hardwareReset => true
  | .resetDuring p => presentedLegal bufLenMax p.bufLen p.mem

/-- The buffer now presented and every pending event are legal. -/
def hostLegal (bufLenMax : Word) (s : State) : Bool :=
  presentedLegal bufLenMax s.bufLen s.mem && s.pending.all (eventLegal bufLenMax)

/-- The record of the host's that 60_exceptions.md R128 asks for: no response so far reports a fault. -/
def faultFree (s : State) : Bool := s.responses.all fun r => statusField r == statusCode .ok

/-- The table invariant (10_state.md R15): whenever `CFG = 1`, `TABLE[n] = TGEN(POLY, n)` for every `n`. -/
def TableInv (s : State) : Prop := s.cfg = true → ∀ n : Byte, tableRead s.table n = tgen s.poly n

/-- The buffer's bytes, presented now or pending, are in canonical form. -/
def eventMemoryWf : HostEvent → Bool
  | .command p => p.mem.wf
  | .hardwareReset => true
  | .resetDuring p => p.mem.wf

/-- The memory invariant of the model: every list of bytes that stands for a buffer is in canonical form. -/
def memoryWf (s : State) : Bool := s.mem.wf && s.pending.all eventMemoryWf

/-- The bytes that a command event folds into the checksum when it completes on a configured engine, or `none` if it
is no update and no readout, or faults (41_update.md R91, R93, R94, R96; 42_readout_reset.md R114). -/
def foldedBytes (p : Presented) : Option (List Byte) :=
  match decode p.word with
  | .ok (.updateByte bt) => some [bt]
  | .ok (.updateRange off len) =>
    if off.toNat + len.toNat ≤ p.bufLen.toNat then some (p.mem.bytes off.toNat len.toNat) else none
  | .ok .updateAll => some (p.mem.bytes 0 p.bufLen.toNat)
  | .ok .value => some []
  | .ok .polynomial => some []
  | .ok (.construct _) => none
  | .ok .reset => none
  | .error _ => none

/-- The opcodes that are reserved (30_encoding.md R58): 0x0 and 0x8 to 0xF. -/
def reservedOpcodes : List (BitVec 4) := [0x0, 0x8, 0x9, 0xA, 0xB, 0xC, 0xD, 0xE, 0xF]

/-- The decision procedure of 60_exceptions.md R126, on the fields of the command word, the configured flag and the
length of the presented buffer. -/
def expectedStatus (p : Presented) (cfg : Bool) : Status :=
  if opField p.word ∈ reservedOpcodes then .illegalCommand
  else if opField p.word ≠ 0x1 ∧ cfg = false then .notConfigured
  else if opField p.word = 0x3 ∧ p.bufLen.toNat < (aField p.word).toNat + (bField p.word).toNat then .boundsViolation
  else .ok

/-- The response data of 30_encoding.md R57: `CRC` for VALUE and `POLY` for POLYNOMIAL with status OK, else 0. -/
def expectedData (p : Presented) (s : State) : Word :=
  if expectedStatus p s.cfg ≠ .ok then 0
  else if opField p.word = 0x5 then s.crc
  else if opField p.word = 0x7 then s.poly
  else 0

/-- The four items of the architectural state agree (10_state.md R10). -/
def SameEngine (s t : State) : Prop :=
  s.poly = t.poly ∧ s.table = t.table ∧ s.crc = t.crc ∧ s.cfg = t.cfg

/-- Two engines that no command can tell apart: the same host, the same `CFG`, and the same registers once configured
(10_state.md R16: at `CFG = 0` the registers hold no value). -/
def Agree (s t : State) : Prop :=
  s.pending = t.pending ∧ s.cfg = t.cfg ∧ (s.cfg = true → SameEngine s t)

/-- The commands that write `CRC` (10_state.md R10, column "written by"). -/
def writesCrc : Instr → Bool
  | .construct _ => true
  | .updateByte _ => true
  | .updateRange _ _ => true
  | .updateAll => true
  | .value => false
  | .reset => true
  | .polynomial => false

/-- A command event whose command only reads out (42_readout_reset.md R114). -/
def isReadout : HostEvent → Bool
  | .command p => decode p.word == .ok .value || decode p.word == .ok .polynomial
  | .hardwareReset => false
  | .resetDuring _ => false

/-- UPDATE_RANGEs of the given lengths that tile one presented buffer in order, from `off` on (41_update.md R98). -/
def tiles (bufLen : Word) (mem : Memory) : Nat → List Nat → List HostEvent
  | _, [] => []
  | off, n :: rest =>
    .command ⟨encode (.updateRange (BitVec.ofNat 32 off) (BitVec.ofNat 32 n)), bufLen, mem⟩ ::
      tiles bufLen mem (off + n) rest

/-- The bit-serial design without a table: the byte is XORed into the low bits and eight bit steps follow (41_update.md
R99, right side). -/
def bitSerial (p : Word) (c : Word) (bytes : List Byte) : Word :=
  bytes.foldl (fun c b => bitSteps p 8 (c ^^^ b.setWidth 32)) c

/-- The machine after the host has done `events` and nothing else, from the registers and the record of `s`
(70_reset_and_hazards.md R146). -/
def runEvents (events : List HostEvent) (s : State) : Host.Outcome State Fault Refusal :=
  Sys2Proof.core.run events.length { s with pending := events }

end Sys2Proof.Safety
end

