-- ==== Sys2Proof/Certificates/Slice0/Obligations.lean ====
section
/-! DEFINITION. The statements for the provers, from the numbered rules of spec/.

Where a statement speaks of `pending`, of the buffer on the port and of `responses`, those are the model's form of the
command, buffer and response ports (log entries 4, 6, 12); the rule cited is what the statement says of the registers
and of the response. -/

open Sys2Proof Sys2Proof.Machine Sys2Proof.Safety

/-! ## Encoding -/

/-- 30_encoding.md, decode procedure: `decode(encode(x)) = x` for every command `x`, at every operand value. -/
def Obligations.DecodeOfEncodeIsTheCommand : Prop :=
  ∀ i : Instr, i.wellFormed = true → decode (encode i) = .ok i

/-- 30_encoding.md, decode procedure: `encode(decode(w)) = w` for the canonical words and for no other word. -/
def Obligations.EncodeOfDecodeOnlyForCanonicalWords : Prop :=
  (∀ w i, decode w = .ok i → (encode i = w ↔ canonicalWord w = true)) ∧
  (∀ w, canonicalWord w = true → ∃ i, decode w = .ok i)

/-- 30_encoding.md R53: an ignored field is not examined (the decoder, and with it the whole step, gives the same for
all its values), no value of it faults, and the encoder puts 0 in it. -/
def Obligations.IgnoredFieldsAreNotExamined : Prop :=
  (∀ a b b', decode (commandWord 0x1 a b) = decode (commandWord 0x1 a b')) ∧
  (∀ a a' b b', a.extractLsb' 0 8 = a'.extractLsb' 0 8 →
    decode (commandWord 0x2 a b) = decode (commandWord 0x2 a' b')) ∧
  (∀ op a a' b b', op ∈ [0x4, 0x5, 0x6, 0x7] → decode (commandWord op a b) = decode (commandWord op a' b')) ∧
  (∀ op a b, op ∈ [0x1, 0x2, 0x3, 0x4, 0x5, 0x6, 0x7] → ∃ i, decode (commandWord op a b) = .ok i) ∧
  (∀ (w w' : CmdWord) (bufLen : Word) (mem : Memory) (rest : List HostEvent) (s : State), decode w = decode w' →
    step { s with pending := .command ⟨w, bufLen, mem⟩ :: rest } =
      step { s with pending := .command ⟨w', bufLen, mem⟩ :: rest }) ∧
  (∀ poly, bField (encode (.construct poly)) = 0) ∧
  (∀ bt, bField (encode (.updateByte bt)) = 0 ∧ (aField (encode (.updateByte bt))).extractLsb' 8 24 = 0) ∧
  (∀ i, i ∈ [Instr.updateAll, .value, .reset, .polynomial] → aField (encode i) = 0 ∧ bField (encode i) = 0)

/-- 30_encoding.md R58 and 60_exceptions.md R123: nine of the sixteen opcodes are reserved, a word is illegal exactly if
its opcode is one of them (the all-zero word is), and such a word faults with IllegalCommand in every state and changes
no register. -/
def Obligations.ReservedOpcodesAreIllegalCommands : Prop :=
  reservedOpcodes.length = 9 ∧ reservedOpcodes.Nodup ∧
  (∀ w, decode w = .error .illegalCommand ↔ opField w ∈ reservedOpcodes) ∧
  (∀ w, opField w ∉ reservedOpcodes ↔ ∃ i, decode w = .ok i) ∧
  decode 0 = .error .illegalCommand ∧
  (∀ s p rest, s.pending = .command p :: rest → opField p.word ∈ reservedOpcodes →
    step s = .next { s with pending := rest, bufLen := p.bufLen, mem := p.mem,
                            responses := s.responses ++ [responseWord .illegalCommand 0] })

/-- 95_test_vectors.md section 4.6: words written out in digits decode to the commands they stand for. -/
def Obligations.WrittenOutWordsDecode : Prop :=
  decode 0x1C8DF352F00000000 = .ok (.construct 0xC8DF352F) ∧
  decode 0x2FFFFFFF2DEADBEEF = .ok (.updateByte 0xF2) ∧
  decode 0x30000000400000005 = .ok (.updateRange 4 5) ∧
  decode 0x4FFFFFFFFFFFFFFFF = .ok .updateAll ∧
  decode 0x5123456789ABCDEF0 = .ok .value ∧
  decode 0x60000000000000000 = .ok .reset ∧
  decode 0x70000000000000000 = .ok .polynomial ∧
  decode 0x8C8DF352F00000000 = .error .illegalCommand

/-- 30_encoding.md R55: every command produces exactly one response word, with the status in `rsp[33:32]` and the data in
`rsp[31:0]`. -/
def Obligations.EveryCommandHasOneResponseWord : Prop :=
  (∀ s p rest, s.pending = .command p :: rest → ∃ t r, step s = .next t ∧ t.responses = s.responses ++ [r]) ∧
  (∀ st data, (responseWord st data).extractLsb' 32 2 = statusCode st ∧
    (responseWord st data).extractLsb' 0 32 = data)

/-- 30_encoding.md R56, 60_exceptions.md R120: the four status codes, as a response with data 0 carries them. -/
def Obligations.StatusCodesAreZeroToThree : Prop :=
  responseWord .ok 0 = 0x000000000 ∧ responseWord .boundsViolation 0 = 0x100000000 ∧
  responseWord .notConfigured 0 = 0x200000000 ∧ responseWord .illegalCommand 0 = 0x300000000

/-- 30_encoding.md R57: the data is `CRC` for VALUE and `POLY` for POLYNOMIAL with status OK; it is 0 for every other
command and for every status that is not OK. -/
def Obligations.ResponseDataOfEveryCommand : Prop :=
  ∀ s p rest, s.pending = .command p :: rest →
    ∃ t r, step s = .next t ∧ t.responses = s.responses ++ [r] ∧ dataField r = expectedData p s

/-! ## The step -/

/-- 20_memory.md R42, 30_encoding.md R50: when the word on the command port decodes to `i`, the step is `exec i`, on the
state in which the event is taken and its buffer stands on the buffer port (a list of events: the model's choice, log entry 4). -/
def Obligations.StepRunsTheDecodedCommand : Prop :=
  ∀ s p rest i, s.pending = .command p :: rest → decode p.word = .ok i →
    step s = exec i { s with pending := rest, bufLen := p.bufLen, mem := p.mem }

/-- 60_exceptions.md R125, R133: with nothing from the host the engine stays as it is (that this is a
step: the model's choice, log entry 4). -/
def Obligations.IdleEngineStaysAsItIs : Prop :=
  ∀ s : State, s.pending = [] → step s = .next s

/-- 20_memory.md R42, 41_update.md R102: every command is a total step; no state makes the machine stop. That a command
which faults takes a next state is the model's reading of R127 and R129 (DEDUCED, log entry 1), and that a step with
nothing from the host is one is its choice (log entry 4). -/
def Obligations.EveryRunOfStepsAnswersANextState : Prop :=
  ∀ (k : Nat) (s : State), ∃ t, Sys2Proof.core.run k s = .next t

/-- 70_reset_and_hazards.md R140: a hardware reset, between commands or in the middle of one, clears `CFG`, gives no
response word, and leaves what the host does next in place (log entry 5). -/
def Obligations.HardwareResetClearsConfigured : Prop :=
  ∀ s rest e, s.pending = e :: rest → (e = .hardwareReset ∨ ∃ p, e = .resetDuring p) →
    ∃ t, step s = .next t ∧ t.cfg = false ∧ t.responses = s.responses ∧ t.pending = rest

/-- 10_state.md R22, 70_reset_and_hazards.md R141 (the clause about `CFG`): after hardware reset `CFG = 0`, nothing has
been answered (the model's own field, log entry 3), and every command but CONSTRUCT faults NotConfigured. -/
def Obligations.ResetStateIsUnconfigured : Prop :=
  State.reset.cfg = false ∧ State.reset.responses = [] ∧
  (∀ i, (∀ p, i ≠ .construct p) →
    exec i State.reset = .next { State.reset with responses := [responseWord .notConfigured 0] })

/-! ## CONSTRUCT and the table generator -/

/-- 00_scope.md R7, R8: the bit step in both of its written forms, and the generator as eight of them in sequence. -/
def Obligations.BitStepAndGenerator : Prop :=
  (∀ p c, step1 p c = if c.getLsbD 0 then p ^^^ (c >>> 1) else c >>> 1) ∧
  (∀ p c, step1 p c = (c >>> 1) ^^^ (p &&& (if c.getLsbD 0 then 0xFFFFFFFF else 0x00000000))) ∧
  (∀ p n, tgen p n =
    step1 p (step1 p (step1 p (step1 p (step1 p (step1 p (step1 p (step1 p (n.setWidth 32)))))))))

/-- 10_state.md R20, 70_reset_and_hazards.md R142: after CONSTRUCT with operand `a`, in whatever state, `POLY = a`,
`TABLE[n] = TGEN(a, n)` for all `n`, `CRC = 0`, `CFG = 1`; the response is OK with data 0 and the ports stand as they
did. -/
def Obligations.ConstructGivesEveryRegisterItsValue : Prop :=
  ∀ a s, ∃ t, exec (.construct a) s = .next t ∧
    t.poly = a ∧ (∀ n : Byte, tableRead t.table n = tgen a n) ∧ t.crc = 0x00000000 ∧ t.cfg = true ∧
    t.responses = s.responses ++ [responseWord .ok 0] ∧
    t.bufLen = s.bufLen ∧ t.mem = s.mem ∧ t.pending = s.pending ∧ t.draws = s.draws

/-- 40_construct.md R73, R74: what CONSTRUCT leaves in the engine depends on its operand only. -/
def Obligations.ConstructDependsOnItsOperandOnly : Prop :=
  ∀ a s s', ∃ t t', exec (.construct a) s = .next t ∧ exec (.construct a) s' = .next t' ∧ SameEngine t t'

/-- 40_construct.md R75: entry 0 is 0 for every polynomial. -/
def Obligations.TableEntryZeroIsZero : Prop :=
  ∀ p, tgen p 0 = 0x00000000

/-- 40_construct.md R76: the bit step and the generator are linear over XOR; an entry is the XOR of the entries of its
set bits; the table is determined by its eight entries at powers of two. -/
def Obligations.TableGeneratorIsLinear : Prop :=
  (∀ p x y, step1 p (x ^^^ y) = step1 p x ^^^ step1 p y) ∧
  (∀ p m n, tgen p (m ^^^ n) = tgen p m ^^^ tgen p n) ∧
  (∀ p n, tgen p n =
    (List.range 8).foldl (fun acc i => if n.getLsbD i then acc ^^^ tgen p (BitVec.twoPow 8 i) else acc) 0) ∧
  (∀ p q, (∀ i < 8, tgen p (BitVec.twoPow 8 i) = tgen q (BitVec.twoPow 8 i)) → ∀ n, tgen p n = tgen q n)

/-- 40_construct.md R77: the entries at powers of two, for every polynomial and for `0xC8DF352F`; `TABLE[128] = POLY` on
every engine that meets the table invariant. -/
def Obligations.PowerOfTwoEntries : Prop :=
  (∀ p i, i ≤ 7 → bitSteps p i (BitVec.twoPow 32 i) = 1) ∧ (∀ p, step1 p 1 = p) ∧
  (∀ p i, i ≤ 7 → tgen p (BitVec.twoPow 8 i) = bitSteps p (7 - i) p) ∧
  (∀ p, tgen p 0x80 = p) ∧ (∀ p, tgen p 0x40 = step1 p p) ∧
  (∀ s, TableInv s → s.cfg = true → tableRead s.table 128 = s.poly) ∧
  tgen 0xC8DF352F 0x80 = 0xC8DF352F ∧ tgen 0xC8DF352F 0x40 = 0xACB0AFB8 ∧
  tgen 0xC8DF352F 0x20 = 0x565857DC ∧ tgen 0xC8DF352F 0x10 = 0x2B2C2BEE ∧
  tgen 0xC8DF352F 0x08 = 0x159615F7 ∧ tgen 0xC8DF352F 0x04 = 0xC2143FD4 ∧
  tgen 0xC8DF352F 0x02 = 0x610A1FEA ∧ tgen 0xC8DF352F 0x01 = 0x30850FF5

/-- 40_construct.md R78: the zero polynomial shifts and gives the zero table, `0x80000000` rotates and gives `n << 24`;
both are accepted. -/
def Obligations.DegeneratePolynomials : Prop :=
  (∀ c, step1 0x00000000 c = c >>> 1) ∧ (∀ n, tgen 0x00000000 n = 0) ∧
  (∀ c, step1 0x80000000 c = c.rotateRight 1) ∧ (∀ n : Byte, tgen 0x80000000 n = n.setWidth 32 <<< 24) ∧
  tgen 0x80000000 0xFF = 0xFF000000 ∧
  (∀ p s, p ∈ [0x00000000, 0x80000000] →
    ∃ t, exec (.construct p) s = .next t ∧ t.poly = p ∧ t.responses = s.responses ++ [responseWord .ok 0])

/-! ## The update commands -/

/-- 41_update.md R91: UPDATE_BYTE, its operand, its result, its one fault, its worked example, and that
the byte 0x00 is no no-op. -/
def Obligations.UpdateByteFoldsItsByte : Prop :=
  (∀ s bt, s.cfg = true →
    exec (.updateByte bt) s = .next { s with
      crc := ~~~ (tableRead s.table (((~~~ s.crc) ^^^ bt.setWidth 32).extractLsb' 0 8) ^^^ ((~~~ s.crc) >>> 8))
      responses := s.responses ++ [responseWord .ok 0] }) ∧
  (∀ s bt, s.cfg = false →
    exec (.updateByte bt) s = .next { s with responses := s.responses ++ [responseWord .notConfigured 0] }) ∧
  (∀ a b, decode (commandWord 0x2 a b) = .ok (.updateByte (a.extractLsb' 0 8))) ∧
  (∀ bt, encode (.updateByte bt) = commandWord 0x2 (bt.setWidth 32) 0) ∧
  (∀ s, s.cfg = true → s.table = buildTable 0xC8DF352F → s.crc = 0x00000000 →
    tableRead s.table 0x0D = 0xE70725D6 ∧
    exec (.updateByte 0xF2) s = .next { s with
      crc := 0x180725D6
      responses := s.responses ++ [responseWord .ok 0] } ∧
    exec (.updateByte 0x00) s = .next { s with
      crc := 0x6016DC99
      responses := s.responses ++ [responseWord .ok 0] })

/-- 41_update.md R93: UPDATE_RANGE, its encoding, its result as the rule's loop, its two faults, its worked example. -/
def Obligations.UpdateRangeFoldsTheRange : Prop :=
  (∀ (s : State) (off len : Word), s.cfg = true → off.toNat + len.toNat ≤ s.bufLen.toNat →
    exec (.updateRange off len) s = .next { s with
      crc := ~~~ (List.range len.toNat).foldl (fun c i =>
        tableRead s.table ((c ^^^ (s.mem.read (off.toNat + i)).setWidth 32).extractLsb' 0 8) ^^^ (c >>> 8)) (~~~ s.crc)
      responses := s.responses ++ [responseWord .ok 0] }) ∧
  (∀ (s : State) (off len : Word), s.cfg = false →
    exec (.updateRange off len) s =
      .next { s with responses := s.responses ++ [responseWord .notConfigured 0] }) ∧
  (∀ (s : State) (off len : Word), s.cfg = true → s.bufLen.toNat < off.toNat + len.toNat →
    exec (.updateRange off len) s =
      .next { s with responses := s.responses ++ [responseWord .boundsViolation 0] }) ∧
  (∀ off len, decode (commandWord 0x3 off len) = .ok (.updateRange off len)) ∧
  (∀ s : State, s.cfg = true → s.table = buildTable 0xC8DF352F → s.bufLen = 9 →
    s.mem = Memory.ofBytes [0x33, 0x22, 0x55, 0xAA, 0xBB, 0xCC, 0xDD, 0xEE, 0xFF] →
    (s.crc = 0x00000000 → exec (.updateRange 0 4) s = .next { s with
      crc := 0xB76D90F4
      responses := s.responses ++ [responseWord .ok 0] }) ∧
    (s.crc = 0xB76D90F4 → exec (.updateRange 4 5) s = .next { s with
      crc := 0xA65A343D
      responses := s.responses ++ [responseWord .ok 0] }))

/-- 41_update.md R94: UPDATE_ALL, its encoding, its result, its one fault, its equality with the range that covers the
buffer, its worked example. -/
def Obligations.UpdateAllFoldsTheBuffer : Prop :=
  (∀ s : State, s.cfg = true →
    exec .updateAll s = .next { s with
      crc := ~~~ (List.range s.bufLen.toNat).foldl (fun c i =>
        tableRead s.table ((c ^^^ (s.mem.read i).setWidth 32).extractLsb' 0 8) ^^^ (c >>> 8)) (~~~ s.crc)
      responses := s.responses ++ [responseWord .ok 0] }) ∧
  (∀ s : State, s.cfg = false →
    exec .updateAll s = .next { s with responses := s.responses ++ [responseWord .notConfigured 0] }) ∧
  (∀ s : State, exec .updateAll s = exec (.updateRange 0 s.bufLen) s) ∧
  (∀ a b, decode (commandWord 0x4 a b) = .ok .updateAll) ∧
  (∀ s : State, s.cfg = true → s.table = buildTable 0xC8DF352F → s.crc = 0x00000000 → s.bufLen = 3 →
    s.mem = Memory.ofBytes [0xF2, 0x01, 0x83] →
    exec .updateAll s = .next { s with
      crc := 0x4F721A25
      responses := s.responses ++ [responseWord .ok 0] })

/-- 41_update.md R92: folding a sequence is folding its bytes one by one, for every table. -/
def Obligations.SequenceUpdateIsAFoldOfByteUpdates : Prop :=
  (∀ t crc bytes, updSeq t crc bytes = bytes.foldl (updb t) crc) ∧ (∀ t crc, updSeq t crc [] = crc)

/-- 41_update.md R96: UPDATE_RANGE on a configured engine faults exactly if `off + len > BUFLEN` in the natural numbers,
empty ranges beyond the end included; a fault leaves every register as it was, whatever the buffer's bytes are. -/
def Obligations.BoundsViolationExactlyOutsideTheBuffer : Prop :=
  (∀ (s : State) (off len : Word), s.cfg = true →
    ((∃ t, exec (.updateRange off len) s = .next t ∧
        t.responses = s.responses ++ [responseWord .boundsViolation 0]) ↔
      s.bufLen.toNat < off.toNat + len.toNat)) ∧
  (∀ (s : State) (off len : Word), s.cfg = true →
    ((∃ t, exec (.updateRange off len) s = .next t ∧ t.responses = s.responses ++ [responseWord .ok 0]) ↔
      off.toNat + len.toNat ≤ s.bufLen.toNat)) ∧
  (∀ (s : State) (off len : Word) (mem : Memory), s.cfg = true → s.bufLen.toNat < off.toNat + len.toNat →
    exec (.updateRange off len) { s with mem := mem } =
      .next { s with mem := mem, responses := s.responses ++ [responseWord .boundsViolation 0] }) ∧
  (∀ (s : State) (off : Word), s.cfg = true → s.bufLen.toNat < off.toNat →
    exec (.updateRange off 0) s = .next { s with responses := s.responses ++ [responseWord .boundsViolation 0] })

/-- 41_update.md R97: an empty update inside the buffer completes and leaves the checksum unchanged. -/
def Obligations.EmptyUpdateChangesNothing : Prop :=
  (∀ (s : State) (off : Word), s.cfg = true → off.toNat ≤ s.bufLen.toNat →
    exec (.updateRange off 0) s = .next { s with responses := s.responses ++ [responseWord .ok 0] }) ∧
  (∀ s : State, s.cfg = true → s.bufLen = 0 →
    exec .updateAll s = .next { s with responses := s.responses ++ [responseWord .ok 0] })

/-- 41_update.md R95: for the same table, the same starting checksum and the same bytes in the same order, the final
checksum is the same by any mixture of the three shapes (with readouts between them). -/
def Obligations.AnyMixtureOfShapesFoldsTheSameBytes : Prop :=
  (∀ (s : State) (ps : List Presented) (parts : List (List Byte)), s.cfg = true → ps.mapM foldedBytes = some parts →
    ∃ t, runEvents (ps.map .command) s = .next t ∧
      t.crc = updSeq s.table s.crc parts.flatten ∧ t.poly = s.poly ∧ t.table = s.table ∧ t.cfg = true) ∧
  (∀ (s : State) (ps qs : List Presented) (xs ys : List (List Byte)), s.cfg = true →
    ps.mapM foldedBytes = some xs → qs.mapM foldedBytes = some ys → xs.flatten = ys.flatten →
    ∃ t u, runEvents (ps.map .command) s = .next t ∧ runEvents (qs.map .command) s = .next u ∧ t.crc = u.crc)

/-- 41_update.md R98: `UPDSEQ(T, UPDSEQ(T, crc, x), y) = UPDSEQ(T, crc, x ++ y)`; feeding the sub-ranges of any partition
of a buffer, in order and with readouts anywhere between them, ends as one UPDATE_ALL. -/
def Obligations.PartitionedFeedEndsAsTheWhole : Prop :=
  (∀ t crc x y, updSeq t (updSeq t crc x) y = updSeq t crc (x ++ y)) ∧
  (∀ (s : State) (bufLen : Word) (mem : Memory) (lens : List Nat) (events : List HostEvent),
    s.cfg = true → lens.sum = bufLen.toNat →
    events.filter (fun e => !isReadout e) = tiles bufLen mem 0 lens →
    ∃ t u, runEvents events s = .next t ∧
      runEvents [.command ⟨encode .updateAll, bufLen, mem⟩] s = .next u ∧ SameEngine t u)

/-- 41_update.md R99: on a table of the generator, one table step is eight bit steps, so the table-driven datapath is the
bit-serial one on every sequence. -/
def Obligations.TableDrivenEqualsBitSerial : Prop :=
  ∀ (t : Table) (p : Word), (∀ n : Byte, tableRead t n = tgen p n) →
    (∀ (c : Word) (bt : Byte),
      tableRead t ((c ^^^ bt.setWidth 32).extractLsb' 0 8) ^^^ (c >>> 8) = bitSteps p 8 (c ^^^ bt.setWidth 32)) ∧
    (∀ crc bytes, updSeq t crc bytes = ~~~ bitSerial p (~~~ crc) bytes)

/-- 41_update.md R100: the per-byte update without the two complements, and its constant for `0xC8DF352F`. -/
def Obligations.ComplementFreeUpdate : Prop :=
  (∀ (t : Table) (p : Word), (∀ n : Byte, tableRead t n = tgen p n) → ∀ (crc : Word) (bt : Byte),
    updb t crc bt =
      tableRead t ((crc ^^^ bt.setWidth 32).extractLsb' 0 8) ^^^ (crc >>> 8) ^^^ tableRead t 0xFF ^^^ 0xFF000000) ∧
  tgen 0xC8DF352F 0xFF ^^^ 0xFF000000 = 0x6016DC99 ∧
  updb (buildTable 0xC8DF352F) 0x00000000 0x00 = 0x6016DC99

/-- 41_update.md R101: four bytes `FF` from `CRC = 0` give all ones for every polynomial, by the working values the rule
lists; a step with index 0 is a pure shift; the zero polynomial's update and where it ends. -/
def Obligations.ResultsForEveryPolynomial : Prop :=
  (∀ (t : Table) (p : Word), (∀ n : Byte, tableRead t n = tgen p n) →
    updSeq t 0x00000000 [0xFF, 0xFF, 0xFF, 0xFF] = 0xFFFFFFFF ∧
    foldByte t 0xFFFFFFFF 0xFF = 0x00FFFFFF ∧ foldByte t 0x00FFFFFF 0xFF = 0x0000FFFF ∧
    foldByte t 0x0000FFFF 0xFF = 0x000000FF ∧ foldByte t 0x000000FF 0xFF = 0x00000000 ∧
    (∀ (c : Word) (bt : Byte), c.extractLsb' 0 8 ^^^ bt = 0 → foldByte t c bt = c >>> 8)) ∧
  (∀ t : Table, (∀ n : Byte, tableRead t n = tgen 0x00000000 n) →
    (∀ crc bt, updb t crc bt = (crc >>> 8) ||| 0xFF000000) ∧
    (∀ crc bytes, 4 ≤ bytes.length → updSeq t crc bytes = 0xFFFFFFFF))

/-- 40_construct.md R71, 41_update.md R90, R99, 42_readout_reset.md R110: CONSTRUCT, then UPDATE_ALL of any buffer, then
VALUE, from any state, answers the checksum that the bit-serial reflected algorithm gives. -/
def Obligations.ChecksumOfAnyBufferIsTheReflectedCrc : Prop :=
  ∀ (s : State) (p : Word) (bytes : List Byte), bytes.length < 2 ^ 32 →
    ∃ t, runEvents
        [.command (presentedWith [] (.construct p)), .command (presentedWith bytes .updateAll),
          .command (presentedWith [] .value)] s = .next t ∧
      t.crc = ~~~ bitSerial p 0xFFFFFFFF bytes ∧
      t.responses = s.responses ++ [responseWord .ok 0, responseWord .ok 0,
        responseWord .ok (~~~ bitSerial p 0xFFFFFFFF bytes)]

/-! ## Readout and RESET -/

/-- 42_readout_reset.md R110: VALUE answers the register as stored, and changes nothing. -/
def Obligations.ValueAnswersTheStoredChecksum : Prop :=
  (∀ s, s.cfg = true → exec .value s = .next { s with responses := s.responses ++ [responseWord .ok s.crc] }) ∧
  (∀ s, s.cfg = false →
    exec .value s = .next { s with responses := s.responses ++ [responseWord .notConfigured 0] }) ∧
  (∀ a b, decode (commandWord 0x5 a b) = .ok .value) ∧
  (∀ s, s.cfg = true → s.crc = updSeq (buildTable 0xC8DF352F) 0 [0xF2, 0x01, 0x83] →
    exec .value s = .next { s with responses := s.responses ++ [0x04F721A25] })

/-- 10_state.md R21, 42_readout_reset.md R111, 70_reset_and_hazards.md R143: RESET returns `CRC` to 0 and leaves
`POLY`, `TABLE` and `CFG` unchanged. -/
def Obligations.ResetCommandClearsTheChecksumOnly : Prop :=
  (∀ s, s.cfg = true →
    exec .reset s = .next { s with crc := 0x00000000, responses := s.responses ++ [responseWord .ok 0] }) ∧
  (∀ s, s.cfg = false →
    exec .reset s = .next { s with responses := s.responses ++ [responseWord .notConfigured 0] }) ∧
  (∀ a b, decode (commandWord 0x6 a b) = .ok .reset)

/-- 42_readout_reset.md R112: POLYNOMIAL answers the operand of the most recent CONSTRUCT, whatever other commands have
come between, and it is also `TABLE[128]`. -/
def Obligations.PolynomialAnswersTheOperandOfConstruct : Prop :=
  (∀ s, s.cfg = true → exec .polynomial s = .next { s with responses := s.responses ++ [responseWord .ok s.poly] }) ∧
  (∀ s, s.cfg = false →
    exec .polynomial s = .next { s with responses := s.responses ++ [responseWord .notConfigured 0] }) ∧
  (∀ a b, decode (commandWord 0x7 a b) = .ok .polynomial) ∧
  (∀ (a : Word) (s : State) (ps : List Presented), (∀ p ∈ ps, ∀ q, decode p.word ≠ .ok (.construct q)) →
    ∃ t u v, exec (.construct a) s = .next t ∧ runEvents (ps.map .command) t = .next u ∧
      exec .polynomial u = .next v ∧ v.responses = u.responses ++ [responseWord .ok a]) ∧
  (∀ s, s.cfg = true → TableInv s → s.poly = tableRead s.table 128)

/-- 42_readout_reset.md R113: RESET leaves the state that CONSTRUCT with the same polynomial leaves, and two RESETs leave
the engine as one does. -/
def Obligations.ResetActsAsConstructWithTheSamePolynomial : Prop :=
  (∀ s, s.cfg = true → TableInv s → exec .reset s = exec (.construct s.poly) s) ∧
  (∀ s, s.cfg = true → ∃ t u, exec .reset s = .next t ∧ exec .reset t = .next u ∧ SameEngine t u)

/-- 42_readout_reset.md R114: a VALUE or POLYNOMIAL inserted anywhere in a sequence of commands adds its own response and
changes no register and no other response. With hardware resets among the host's other events (70_reset_and_hazards.md
R140) the responses and `CFG` agree as well, and the registers do once the engine is configured: of what they hold before
that (log entry 2) nothing is said. -/
def Obligations.ReadoutsDoNotDisturb : Prop :=
  ∀ (s : State) (before after : List HostEvent) (p : Presented),
    decode p.word = .ok .value ∨ decode p.word = .ok .polynomial →
    ∃ m t u r later, runEvents before s = .next m ∧
      runEvents (before ++ .command p :: after) s = .next t ∧ runEvents (before ++ after) s = .next u ∧
      t.responses = m.responses ++ r :: later ∧ u.responses = m.responses ++ later ∧
      t.cfg = u.cfg ∧ (t.cfg = true → SameEngine t u) ∧
      ((∀ e ∈ before ++ after, ∃ q, e = .command q) → SameEngine t u)

/-! ## Faults -/

/-- 60_exceptions.md R122: any command other than CONSTRUCT faults NotConfigured while `CFG = 0`, whatever the registers
hold. -/
def Obligations.NotConfiguredBeforeConstruct : Prop :=
  ∀ s i, s.cfg = false → (∀ p, i ≠ .construct p) →
    exec i s = .next { s with responses := s.responses ++ [responseWord .notConfigured 0] }

/-- 60_exceptions.md R126: exactly one status is reported, by the rule's decision procedure. -/
def Obligations.FaultPriority : Prop :=
  ∀ s p rest, s.pending = .command p :: rest →
    ∃ t data, step s = .next t ∧ t.responses = s.responses ++ [responseWord (expectedStatus p s.cfg) data]

/-- 60_exceptions.md R127: a faulting command changes no register and no byte of the buffer, reads no byte of it (the
bytes make no difference), and its response has data 0; the only other effect of the step is that the event has been
taken and its buffer presented. -/
def Obligations.FaultingCommandChangesNothing : Prop :=
  ∀ s p rest t r, s.pending = .command p :: rest → step s = .next t → t.responses = s.responses ++ [r] →
    statusField r ≠ 0 →
    dataField r = 0 ∧ SameEngine s t ∧
      t = { s with pending := rest, bufLen := p.bufLen, mem := p.mem, responses := s.responses ++ [r] } ∧
      ∀ mem, step { s with pending := .command { p with mem := mem } :: rest } = .next { t with mem := mem }

/-- 60_exceptions.md R128: the record of responses has no effect on what the engine does (the record in State: the
model's choice, log entry 12). With a command or nothing pending the next states differ in the record only; with a
hardware reset they agree in all but the words that `POLY`, `TABLE` and `CRC` hold then, of which nothing is said (log
entry 2). -/
def Obligations.ResponsesAreNeverRead : Prop :=
  ∀ s, ∃ t added, step s = .next t ∧ t.responses = s.responses ++ added ∧
    ∀ record, ∃ t', step { s with responses := record } = .next t' ∧ t'.responses = record ++ added ∧
      t'.cfg = t.cfg ∧ t'.bufLen = t.bufLen ∧ t'.mem = t.mem ∧ t'.pending = t.pending ∧
      (s.pending = [] ∨ (∃ p rest, s.pending = .command p :: rest) → t' = { t with responses := record ++ added })

/-! ## Frames and whole-machine rules -/

/-- 10_state.md, the access matrix after R19: what each command leaves unchanged. Every byte of the buffer reads as
before, for no command stores to it. -/
def Obligations.EveryCommandLeavesTheRestUnchanged : Prop :=
  ∀ i s t, exec i s = .next t →
    (∀ a, t.mem.read a = s.mem.read a) ∧ t.mem = s.mem ∧ t.bufLen = s.bufLen ∧ t.pending = s.pending ∧
      t.draws = s.draws ∧
    ((∀ p, i ≠ .construct p) → t.poly = s.poly ∧ t.table = s.table ∧ t.cfg = s.cfg) ∧
    (i = .value ∨ i = .polynomial → t.crc = s.crc) ∧
    (∃ r, t.responses = s.responses ++ [r])

/-- 20_memory.md R35: the engine never writes the buffer, reads have no side effect on it, and UPDATE_BYTE makes no
buffer access: it does the same whatever is presented. -/
def Obligations.EngineNeverWritesTheBuffer : Prop :=
  (∀ i s t, exec i s = .next t → ∀ a, t.mem.read a = s.mem.read a) ∧
  (∀ bt s, ∃ t, exec (.updateByte bt) s = .next t ∧ ∀ bufLen mem,
    exec (.updateByte bt) { s with bufLen := bufLen, mem := mem } = .next { t with bufLen := bufLen, mem := mem })

/-- 20_memory.md R34: no index outside the range, and none at or above `BUFLEN`, is ever read: the bytes there make no
difference. -/
def Obligations.OnlyTheRangeIsRead : Prop :=
  (∀ (s : State) (off len : Word) (mem : Memory),
    (∀ a, off.toNat ≤ a → a < off.toNat + len.toNat → a < s.bufLen.toNat → mem.read a = s.mem.read a) →
    ∃ t, exec (.updateRange off len) s = .next t ∧
      exec (.updateRange off len) { s with mem := mem } = .next { t with mem := mem }) ∧
  (∀ (s : State) (mem : Memory), (∀ a, a < s.bufLen.toNat → mem.read a = s.mem.read a) →
    ∃ t, exec .updateAll s = .next t ∧ exec .updateAll { s with mem := mem } = .next { t with mem := mem })

/-- 10_state.md R10 (columns "written by"), R11, R14, R16: a step changes `POLY` or `TABLE` only by CONSTRUCT or a
hardware reset, clears `CFG` only by a hardware reset, sets it only by CONSTRUCT, and changes `CRC` only by CONSTRUCT,
RESET, an update command or a hardware reset: an idle step, a reserved word and a readout leave it alone. -/
def Obligations.RegistersChangeOnlyByTheirWriters : Prop :=
  ∀ s t, step s = .next t →
    (t.poly ≠ s.poly ∨ t.table ≠ s.table →
      ∃ rest, s.pending = .hardwareReset :: rest ∨ ∃ p, s.pending = .resetDuring p :: rest ∨
        ∃ a, s.pending = .command p :: rest ∧ decode p.word = .ok (.construct a)) ∧
    (s.cfg = true → t.cfg = false →
      ∃ rest, s.pending = .hardwareReset :: rest ∨ ∃ p, s.pending = .resetDuring p :: rest) ∧
    (s.cfg = false → t.cfg = true → ∃ p rest a, s.pending = .command p :: rest ∧ decode p.word = .ok (.construct a)) ∧
    (t.crc ≠ s.crc →
      ∃ rest, s.pending = .hardwareReset :: rest ∨ ∃ p, s.pending = .resetDuring p :: rest ∨
        ∃ i, s.pending = .command p :: rest ∧ decode p.word = .ok i ∧ writesCrc i = true) ∧
    (∀ p rest, s.pending = .command p :: rest → decode p.word = .ok .value ∨ decode p.word = .ok .polynomial →
      t.crc = s.crc)

/-! ## Invariants -/

/-- 10_state.md R15: CONSTRUCT establishes the table invariant from any state, no other command writes `POLY` or
`TABLE`, and every step keeps the invariant. -/
def Obligations.TableInvariantIsKept : Prop :=
  (∀ a s t, exec (.construct a) s = .next t → TableInv t) ∧
  (∀ i s t, (∀ p, i ≠ .construct p) → exec i s = .next t → t.poly = s.poly ∧ t.table = s.table) ∧
  (∀ s t, TableInv s → step s = .next t → TableInv t)

/-- The model's own form (log entry 6): the lists that stand for buffers stay in canonical form. -/
def Obligations.BufferFormIsKept : Prop :=
  ∀ s t, memoryWf s = true → step s = .next t → memoryWf t = true

/-- The invariants hold at reset, for any largest buffer length of the platform (the empty ports and lists there: the
model's choice, log entry 3). -/
def Obligations.InvariantsHoldAtReset : Prop :=
  TableInv State.reset ∧ memoryWf State.reset = true ∧ faultFree State.reset = true ∧
  ∀ bufLenMax, hostLegal bufLenMax State.reset = true

/-- 20_memory.md R33, 70_reset_and_hazards.md R150: a step keeps the host's duties of buffer length and form, for any
largest buffer length of the platform (log entries 6, 9). -/
def Obligations.HostLegalityIsKept : Prop :=
  ∀ bufLenMax s t, hostLegal bufLenMax s = true → step s = .next t → hostLegal bufLenMax t = true

/-! ## Instances and power-on values -/

/-- 10_state.md R16, R22, R24, 40_construct.md R73: two engines that are not configured, with whatever in their registers,
give the same responses to the same host; once configured their registers agree. -/
def Obligations.PowerOnContentsAreNeverObserved : Prop :=
  ∀ (k : Nat) (s s' : State), s.cfg = false → s'.cfg = false → s.pending = s'.pending →
    ∃ t t' added, Sys2Proof.core.run k s = .next t ∧ Sys2Proof.core.run k s' = .next t' ∧
      t.responses = s.responses ++ added ∧ t'.responses = s'.responses ++ added ∧
      t.cfg = t'.cfg ∧ (t.cfg = true → SameEngine t t')

/-- 20_memory.md R44, 70_reset_and_hazards.md R147: a command that follows CONSTRUCT at once sees the whole new table. -/
def Obligations.UpdateAfterConstructSeesTheNewTable : Prop :=
  ∀ a bt s, ∃ t u, exec (.construct a) s = .next t ∧ exec (.updateByte bt) t = .next u ∧
    u.crc = ~~~ (tgen a ((0xFFFFFFFF ^^^ bt.setWidth 32 : Word).extractLsb' 0 8) ^^^ 0x00FFFFFF)

/-- 30_encoding.md R61: UPDATE_ALL and the covering UPDATE_RANGE, UPDATE_BYTES and its UPDATE_BYTEs, CHECKSUM and its
expansion end in the same state with the same last response. -/
def Obligations.PseudoOperationsExpand : Prop :=
  (∀ s : State, exec .updateAll s = exec (.updateRange 0 s.bufLen) s) ∧
  (∀ (s : State) (buffer bytes : List Byte),
    ∃ t, runEvents (assemble buffer [.updateBytes bytes]) s = .next t ∧
      runEvents (assemble buffer (bytes.map fun b => .updateByte b.toNat)) s = .next t ∧
      (s.cfg = true → t.crc = updSeq s.table s.crc bytes)) ∧
  (∀ (s : State) (buffer bytes : List Byte) (p : Word),
    ∃ t earlier, runEvents (assemble buffer [.checksum p.toNat bytes]) s = .next t ∧
      runEvents (assemble buffer [.construct p.toNat, .updateBytes bytes, .value]) s = .next t ∧
      t.responses = earlier ++ [responseWord .ok (updSeq (buildTable p) 0 bytes)])

/-- 10_state.md R16, R22, R24, 40_construct.md R73, as an invariant of two engines: if they face the same host, agree in
`CFG`, and agree in every register when `CFG = 1`, then their steps give the same responses and keep that. -/
def Obligations.AgreementOfTwoEnginesIsKept : Prop :=
  ∀ s s' : State, Agree s s' →
    ∃ t t' added, step s = .next t ∧ step s' = .next t' ∧ Agree t t' ∧
      t.responses = s.responses ++ added ∧ t'.responses = s'.responses ++ added
end

