-- ==== Sys2Proof/Laws/Codec.lean ====
section
/-! SUPPORT. The three fields of a command word, and what the decoder reads from a word given by its fields. -/

namespace Sys2Proof

/-- The bits of a command word, field by field (30_encoding.md R51). -/
theorem getLsbD_commandWord (op : BitVec 4) (a b : Word) (i : Nat) :
    (commandWord op a b).getLsbD i =
      if i < 32 then b.getLsbD i else if i < 64 then a.getLsbD (i - 32) else op.getLsbD (i - 64) := by
  change (op ++ a ++ b : BitVec (4 + 32 + 32)).getLsbD i = _
  rw [BitVec.getLsbD_append, BitVec.getLsbD_append]
  split
  · rfl
  · rw [show i - 32 - 32 = i - 64 by omega]
    split <;> split <;> first | rfl | omega

@[simp] theorem opField_commandWord (op : BitVec 4) (a b : Word) : opField (commandWord op a b) = op := by
  refine BitVec.eq_of_getLsbD_eq fun i hi => ?_
  rw [opField, BitVec.getLsbD_extractLsb', getLsbD_commandWord, if_neg (by omega), if_neg (by omega)]
  simp [hi]

@[simp] theorem aField_commandWord (op : BitVec 4) (a b : Word) : aField (commandWord op a b) = a := by
  refine BitVec.eq_of_getLsbD_eq fun i hi => ?_
  rw [aField, BitVec.getLsbD_extractLsb', getLsbD_commandWord, if_neg (by omega), if_pos (by omega)]
  simp [hi]

@[simp] theorem bField_commandWord (op : BitVec 4) (a b : Word) : bField (commandWord op a b) = b := by
  refine BitVec.eq_of_getLsbD_eq fun i hi => ?_
  rw [bField, BitVec.getLsbD_extractLsb', getLsbD_commandWord, if_pos (by omega)]
  simp [hi]

/-- A command word is its three fields. -/
theorem commandWord_fields (w : CmdWord) : commandWord (opField w) (aField w) (bField w) = w := by
  refine BitVec.eq_of_getLsbD_eq fun i hi => ?_
  rw [getLsbD_commandWord, opField, aField, bField]
  simp only [BitVec.getLsbD_extractLsb']
  split
  · simp [*]
  · split
    · rw [show 32 + (i - 32) = i by omega]
      simp; omega
    · rw [show 64 + (i - 64) = i by omega]
      simp; omega

theorem commandWord_injective {op op' : BitVec 4} {a a' b b' : Word} (h : commandWord op a b = commandWord op' a' b') :
    op = op' ∧ a = a' ∧ b = b' :=
  ⟨by simpa using congrArg opField h, by simpa using congrArg aField h, by simpa using congrArg bField h⟩

@[simp] theorem byteOperand_setWidth (bt : Byte) : byteOperand (bt.setWidth 32) = bt := by
  refine BitVec.eq_of_getLsbD_eq fun i hi => ?_
  simp [byteOperand, hi]
  omega

/-- What the decoder reads from a word given by its fields. -/
theorem decode_commandWord (op : BitVec 4) (a b : Word) :
    decode (commandWord op a b) =
      if op = 1 then .ok (.construct a)
      else if op = 2 then .ok (.updateByte (byteOperand a))
      else if op = 3 then .ok (.updateRange a b)
      else if op = 4 then .ok .updateAll
      else if op = 5 then .ok .value
      else if op = 6 then .ok .reset
      else if op = 7 then .ok .polynomial
      else .error .illegalCommand := by
  unfold decode
  rw [opField_commandWord, aField_commandWord, bField_commandWord]
  generalize byteOperand a = bt
  revert op
  exact fun op => by
    match op with
    | ⟨⟨n, h⟩⟩ => interval_cases n <;> rfl

end Sys2Proof
end

