-- ==== Sys2Proof/Laws/State.lean ====
section
/-! SUPPORT. What each named update of the state does to each field. -/

namespace Sys2Proof.Machine

@[simp] theorem State.writeCrc_poly (v : Word) (s : State) : (s.writeCrc v).poly = s.poly := rfl
@[simp] theorem State.writeCrc_table (v : Word) (s : State) : (s.writeCrc v).table = s.table := rfl
@[simp] theorem State.writeCrc_crc (v : Word) (s : State) : (s.writeCrc v).crc = v := rfl
@[simp] theorem State.writeCrc_cfg (v : Word) (s : State) : (s.writeCrc v).cfg = s.cfg := rfl
@[simp] theorem State.writeCrc_bufLen (v : Word) (s : State) : (s.writeCrc v).bufLen = s.bufLen := rfl
@[simp] theorem State.writeCrc_mem (v : Word) (s : State) : (s.writeCrc v).mem = s.mem := rfl
@[simp] theorem State.writeCrc_pending (v : Word) (s : State) : (s.writeCrc v).pending = s.pending := rfl
@[simp] theorem State.writeCrc_responses (v : Word) (s : State) : (s.writeCrc v).responses = s.responses := rfl
@[simp] theorem State.writeCrc_draws (v : Word) (s : State) : (s.writeCrc v).draws = s.draws := rfl

@[simp] theorem State.load_poly (p : Word) (t : Table) (s : State) : (s.load p t).poly = p := rfl
@[simp] theorem State.load_table (p : Word) (t : Table) (s : State) : (s.load p t).table = t := rfl
@[simp] theorem State.load_crc (p : Word) (t : Table) (s : State) : (s.load p t).crc = 0 := rfl
@[simp] theorem State.load_cfg (p : Word) (t : Table) (s : State) : (s.load p t).cfg = true := rfl
@[simp] theorem State.load_bufLen (p : Word) (t : Table) (s : State) : (s.load p t).bufLen = s.bufLen := rfl
@[simp] theorem State.load_mem (p : Word) (t : Table) (s : State) : (s.load p t).mem = s.mem := rfl
@[simp] theorem State.load_pending (p : Word) (t : Table) (s : State) : (s.load p t).pending = s.pending := rfl
@[simp] theorem State.load_responses (p : Word) (t : Table) (s : State) : (s.load p t).responses = s.responses := rfl
@[simp] theorem State.load_draws (p : Word) (t : Table) (s : State) : (s.load p t).draws = s.draws := rfl

@[simp] theorem State.present_poly (p : Presented) (s : State) : (s.present p).poly = s.poly := rfl
@[simp] theorem State.present_table (p : Presented) (s : State) : (s.present p).table = s.table := rfl
@[simp] theorem State.present_crc (p : Presented) (s : State) : (s.present p).crc = s.crc := rfl
@[simp] theorem State.present_cfg (p : Presented) (s : State) : (s.present p).cfg = s.cfg := rfl
@[simp] theorem State.present_bufLen (p : Presented) (s : State) : (s.present p).bufLen = p.bufLen := rfl
@[simp] theorem State.present_mem (p : Presented) (s : State) : (s.present p).mem = p.mem := rfl
@[simp] theorem State.present_pending (p : Presented) (s : State) : (s.present p).pending = s.pending := rfl
@[simp] theorem State.present_responses (p : Presented) (s : State) : (s.present p).responses = s.responses := rfl
@[simp] theorem State.present_draws (p : Presented) (s : State) : (s.present p).draws = s.draws := rfl

@[simp] theorem State.respond_poly (st : Status) (data : Word) (s : State) : (s.respond st data).poly = s.poly := rfl
@[simp] theorem State.respond_table (st : Status) (data : Word) (s : State) : (s.respond st data).table = s.table := rfl
@[simp] theorem State.respond_crc (st : Status) (data : Word) (s : State) : (s.respond st data).crc = s.crc := rfl
@[simp] theorem State.respond_cfg (st : Status) (data : Word) (s : State) : (s.respond st data).cfg = s.cfg := rfl
@[simp] theorem State.respond_bufLen (st : Status) (data : Word) (s : State) : (s.respond st data).bufLen = s.bufLen := rfl
@[simp] theorem State.respond_mem (st : Status) (data : Word) (s : State) : (s.respond st data).mem = s.mem := rfl
@[simp] theorem State.respond_pending (st : Status) (data : Word) (s : State) : (s.respond st data).pending = s.pending := rfl
@[simp] theorem State.respond_responses (st : Status) (data : Word) (s : State) : (s.respond st data).responses = s.responses ++ [responseWord st data] := rfl
@[simp] theorem State.respond_draws (st : Status) (data : Word) (s : State) : (s.respond st data).draws = s.draws := rfl

@[simp] theorem State.hardwareReset_poly (s : State) : s.hardwareReset.poly = Config.freeWord s.draws := rfl
@[simp] theorem State.hardwareReset_table (s : State) : s.hardwareReset.table = freeTable (s.draws + 2) := rfl
@[simp] theorem State.hardwareReset_crc (s : State) : s.hardwareReset.crc = Config.freeWord (s.draws + 1) := rfl
@[simp] theorem State.hardwareReset_cfg (s : State) : s.hardwareReset.cfg = false := rfl
@[simp] theorem State.hardwareReset_bufLen (s : State) : s.hardwareReset.bufLen = s.bufLen := rfl
@[simp] theorem State.hardwareReset_mem (s : State) : s.hardwareReset.mem = s.mem := rfl
@[simp] theorem State.hardwareReset_pending (s : State) : s.hardwareReset.pending = s.pending := rfl
@[simp] theorem State.hardwareReset_responses (s : State) : s.hardwareReset.responses = s.responses := rfl
@[simp] theorem State.hardwareReset_draws (s : State) : s.hardwareReset.draws = s.draws + 258 := rfl

@[simp] theorem State.issue_poly (w : CmdWord) (s : State) : (s.issue w).poly = s.poly := rfl
@[simp] theorem State.issue_table (w : CmdWord) (s : State) : (s.issue w).table = s.table := rfl
@[simp] theorem State.issue_crc (w : CmdWord) (s : State) : (s.issue w).crc = s.crc := rfl
@[simp] theorem State.issue_cfg (w : CmdWord) (s : State) : (s.issue w).cfg = s.cfg := rfl
@[simp] theorem State.issue_bufLen (w : CmdWord) (s : State) : (s.issue w).bufLen = s.bufLen := rfl
@[simp] theorem State.issue_mem (w : CmdWord) (s : State) : (s.issue w).mem = s.mem := rfl
@[simp] theorem State.issue_pending (w : CmdWord) (s : State) : (s.issue w).pending = .command ⟨w, s.bufLen, s.mem⟩ :: s.pending := rfl
@[simp] theorem State.issue_responses (w : CmdWord) (s : State) : (s.issue w).responses = s.responses := rfl
@[simp] theorem State.issue_draws (w : CmdWord) (s : State) : (s.issue w).draws = s.draws := rfl

end Sys2Proof.Machine
end

