-- ==== Sys2Proof/Laws/Ops.lean ====
section
/-! SUPPORT. What each shared operation can do. -/

namespace Sys2Proof.Machine

/-- A completing command answers a next state: one response word more, status OK. -/
theorem complete_eq (data : Word) (s : State) : complete data s = .next (s.respond .ok data) := rfl

/-- A faulting command answers a next state: one response word more, data 0, nothing else. -/
theorem raise_eq (st : Status) (s : State) : raise st s = .next (s.respond st 0) := rfl

theorem ifConfigured_of_configured {s : State} (h : s.cfg = true) (run : Host.Outcome State Fault Refusal) :
    ifConfigured s run = run := if_pos h

theorem ifConfigured_of_not {s : State} (h : s.cfg = false) (run : Host.Outcome State Fault Refusal) :
    ifConfigured s run = .next (s.respond .notConfigured 0) := by
  simp [ifConfigured, h, raise_eq]

/-- Everything the gate can answer. -/
theorem ifConfigured_cases (s : State) (run : Host.Outcome State Fault Refusal) :
    (s.cfg = true ∧ ifConfigured s run = run) ∨
      (s.cfg = false ∧ ifConfigured s run = .next (s.respond .notConfigured 0)) := by
  cases h : s.cfg with
  | true => exact .inl ⟨rfl, ifConfigured_of_configured h run⟩
  | false => exact .inr ⟨rfl, ifConfigured_of_not h run⟩

/-- The bits of a response word, field by field (30_encoding.md R55). -/
theorem getLsbD_responseWord (st : Status) (data : Word) (i : Nat) :
    (responseWord st data).getLsbD i = if i < 32 then data.getLsbD i else (statusCode st).getLsbD (i - 32) := by
  change (statusCode st ++ data : BitVec (2 + 32)).getLsbD i = _
  rw [BitVec.getLsbD_append]

@[simp] theorem statusField_responseWord (st : Status) (data : Word) :
    statusField (responseWord st data) = statusCode st := by
  refine BitVec.eq_of_getLsbD_eq fun i hi => ?_
  rw [statusField, BitVec.getLsbD_extractLsb', getLsbD_responseWord, if_neg (by omega)]
  simp [hi]

@[simp] theorem dataField_responseWord (st : Status) (data : Word) : dataField (responseWord st data) = data := by
  refine BitVec.eq_of_getLsbD_eq fun i hi => ?_
  rw [dataField, BitVec.getLsbD_extractLsb', getLsbD_responseWord, if_pos (by omega)]
  simp [hi]

theorem statusCode_injective {a b : Status} (h : statusCode a = statusCode b) : a = b := by
  cases a <;> cases b <;> first | rfl | exact absurd h (by decide)

theorem statusCode_eq_zero {st : Status} : statusCode st = 0 ↔ st = .ok := by
  cases st <;> decide

theorem responseWord_injective {a b : Status} {x y : Word} (h : responseWord a x = responseWord b y) :
    a = b ∧ x = y :=
  ⟨statusCode_injective (by simpa using congrArg statusField h), by simpa using congrArg dataField h⟩

@[simp] theorem tableRead_tableOf (f : Byte → Word) (i : Byte) : tableRead (tableOf f) i = f i := by
  simp [tableRead, tableOf]

/-- Two tables with equal entries are equal. -/
theorem table_ext {t t' : Table} (h : ∀ i : Byte, tableRead t i = tableRead t' i) : t = t' := by
  refine Vector.ext fun i hi => ?_
  have := h (BitVec.ofNat 8 i)
  simpa [tableRead, Nat.mod_eq_of_lt hi] using this

end Sys2Proof.Machine
end

