-- ==== Sys2Proof/Laws/Generator.lean ====
section
/-! SUPPORT. The bit steps, the built table and the datapath's fold. -/

namespace Sys2Proof.Machine

@[simp] theorem bitSteps_zero (p c : Word) : bitSteps p 0 c = c := rfl

theorem bitSteps_succ (p c : Word) (k : Nat) : bitSteps p (k + 1) c = bitSteps p k (step1 p c) := rfl

/-- Steps compose. -/
theorem bitSteps_add (p c : Word) (j k : Nat) : bitSteps p (j + k) c = bitSteps p k (bitSteps p j c) := by
  induction j generalizing c with
  | zero => simp
  | succ j ih => rw [Nat.succ_add, bitSteps_succ, ih, bitSteps_succ]

@[simp] theorem tableRead_buildTable (p : Word) (n : Byte) : tableRead (buildTable p) n = tgen p n :=
  tableRead_tableOf _ n

/-- A table with the generator's entries is the built table. -/
theorem eq_buildTable {t : Table} {p : Word} (h : ∀ n : Byte, tableRead t n = tgen p n) : t = buildTable p :=
  table_ext fun i => by rw [h, tableRead_buildTable]

theorem not_updb (t : Table) (crc : Word) (b : Byte) : ~~~ updb t crc b = foldByte t (~~~ crc) b := by
  simp [updb]

theorem updSeq_cons (t : Table) (crc : Word) (b : Byte) (bytes : List Byte) :
    updSeq t crc (b :: bytes) = updSeq t (updb t crc b) bytes := by
  simp [updSeq, updb]

end Sys2Proof.Machine
end

