-- ==== Sys2Proof/Laws/Memory.lean ====
section
/-! SUPPORT. The buffer: read after write, and that every operation keeps the canonical form. -/

namespace Sys2Proof.Machine

theorem canonicalFrom_mono {lo hi : Nat} {m : Memory} (h : lo ≤ hi) (hm : canonicalFrom hi m = true) :
    canonicalFrom lo m = true := by
  cases m with
  | nil => rfl
  | cons c rest =>
    simp only [canonicalFrom, Bool.and_eq_true, decide_eq_true_eq] at hm ⊢
    exact ⟨⟨by omega, hm.1.2⟩, hm.2⟩

/-- Below the lowest listed index everything reads as unlisted. -/
theorem read_below {lo a : Nat} {m : Memory} (hm : canonicalFrom lo m = true) (ha : a < lo) :
    m.read a = unlistedByte := by
  induction m generalizing lo with
  | nil => rfl
  | cons c rest ih =>
    simp only [canonicalFrom, Bool.and_eq_true, decide_eq_true_eq] at hm
    rw [Memory.read, if_neg (by omega)]
    exact ih hm.2 (by omega)

theorem canonicalFrom_consCell {lo a : Nat} {b : Byte} {rest : Memory} (ha : lo ≤ a)
    (hr : canonicalFrom (a + 1) rest = true) : canonicalFrom lo (consCell a b rest) = true := by
  unfold consCell
  split
  · exact canonicalFrom_mono (by omega) hr
  · simp [canonicalFrom, *]

theorem read_consCell {a : Nat} {b : Byte} {rest : Memory} (hr : canonicalFrom (a + 1) rest = true) (x : Nat) :
    (consCell a b rest).read x = if x = a then b else rest.read x := by
  unfold consCell
  split
  · next hb =>
    split
    · next hx => rw [hx, read_below hr (by omega), hb]
    · rfl
  · simp only [Memory.read, eq_comm]

theorem canonicalFrom_write {lo a : Nat} {b : Byte} {m : Memory} (ha : lo ≤ a) (hm : canonicalFrom lo m = true) :
    canonicalFrom lo (m.write a b) = true := by
  induction m generalizing lo with
  | nil => exact canonicalFrom_consCell ha rfl
  | cons c rest ih =>
    have hm' := hm
    simp only [canonicalFrom, Bool.and_eq_true, decide_eq_true_eq] at hm
    rw [Memory.write]
    split
    · refine canonicalFrom_consCell ha ?_
      simp only [canonicalFrom, Bool.and_eq_true, decide_eq_true_eq]
      exact ⟨⟨by omega, hm.1.2⟩, hm.2⟩
    · split
      · next h => exact canonicalFrom_consCell ha (h ▸ hm.2)
      · simp only [canonicalFrom, Bool.and_eq_true, decide_eq_true_eq]
        exact ⟨hm.1, ih (by omega) hm.2⟩

/-- A write keeps the canonical form. -/
theorem write_wf {m : Memory} (hm : m.wf = true) (a : Nat) (b : Byte) : (m.write a b).wf = true :=
  canonicalFrom_write (Nat.zero_le a) hm

/-- A read after a write: the byte written at its index, the old byte everywhere else. -/
theorem read_write {lo : Nat} {m : Memory} (hm : canonicalFrom lo m = true) (a : Nat) (b : Byte) (x : Nat) :
    (m.write a b).read x = if x = a then b else m.read x := by
  induction m generalizing lo with
  | nil => exact read_consCell rfl x
  | cons c rest ih =>
    have hm' := hm
    simp only [canonicalFrom, Bool.and_eq_true, decide_eq_true_eq] at hm
    rw [Memory.write]
    split
    · refine read_consCell ?_ x
      simp only [canonicalFrom, Bool.and_eq_true, decide_eq_true_eq]
      exact ⟨⟨by omega, hm.1.2⟩, hm.2⟩
    · split
      · next h =>
        rw [read_consCell (h ▸ hm.2), Memory.read]
        split
        · rfl
        · rw [if_neg (by omega)]
      · rw [Memory.read, Memory.read, ih hm.2]
        split
        · rw [if_neg (by omega)]
        · rfl

theorem canonicalFrom_ofBytesFrom (base : Nat) (bytes : List Byte) :
    canonicalFrom base (Memory.ofBytesFrom base bytes) = true := by
  induction bytes generalizing base with
  | nil => rfl
  | cons b rest ih => exact canonicalFrom_write (le_refl base) (canonicalFrom_mono (by omega) (ih (base + 1)))

/-- The contents of a presented buffer are in canonical form. -/
theorem ofBytes_wf (bytes : List Byte) : (Memory.ofBytes bytes).wf = true :=
  canonicalFrom_ofBytesFrom 0 bytes

theorem read_ofBytesFrom (base : Nat) (bytes : List Byte) (i : Nat) :
    (Memory.ofBytesFrom base bytes).read (base + i) = bytes.getD i unlistedByte := by
  induction bytes generalizing base i with
  | nil => rfl
  | cons b rest ih =>
    rw [Memory.ofBytesFrom, read_write (canonicalFrom_ofBytesFrom (base + 1) rest)]
    cases i with
    | zero => simp
    | succ i =>
      rw [if_neg (by omega), show base + (i + 1) = base + 1 + i by omega, ih (base + 1) i]
      rfl

/-- Byte `i` of a presented buffer is the `i`-th byte of the sequence (20_memory.md R33). -/
theorem read_ofBytes (bytes : List Byte) (i : Nat) :
    (Memory.ofBytes bytes).read i = bytes.getD i unlistedByte := by
  have h := read_ofBytesFrom 0 bytes i
  rwa [Nat.zero_add] at h

@[simp] theorem length_bytes (m : Memory) (off len : Nat) : (m.bytes off len).length = len := by
  simp [Memory.bytes]

@[simp] theorem bytes_zero (m : Memory) (off : Nat) : m.bytes off 0 = [] := rfl

/-- A range is the range of its first `n` bytes and then the rest. -/
theorem bytes_add (m : Memory) (off n k : Nat) : m.bytes off (n + k) = m.bytes off n ++ m.bytes (off + n) k := by
  simp [Memory.bytes, List.range_add, Function.comp_def, Nat.add_assoc]

/-- The bytes of a range depend on the range's bytes alone. -/
theorem bytes_congr {m m' : Memory} {off len : Nat} (h : ∀ a, off ≤ a → a < off + len → m'.read a = m.read a) :
    m'.bytes off len = m.bytes off len := by
  refine List.map_congr_left fun i hi => h _ (by omega) ?_
  have := List.mem_range.mp hi
  omega

/-- The whole of a presented buffer reads back as the sequence it was made from. -/
theorem bytes_ofBytes (bytes : List Byte) : (Memory.ofBytes bytes).bytes 0 bytes.length = bytes := by
  refine List.ext_getElem (by simp) fun i h1 h2 => ?_
  simp [Memory.bytes, read_ofBytes, h2]

end Sys2Proof.Machine
end

