-- ==== Sys2Proof/Laws/Operands.lean ====
section
/-! SUPPORT. The bounds check and the bytes of a range. -/

namespace Sys2Proof.Machine

/-- The check is the comparison of natural numbers that 41_update.md R96 gives. -/
theorem rangeInside_iff (off len bufLen : Word) :
    rangeInside off len bufLen = true ↔ off.toNat + len.toNat ≤ bufLen.toNat := by
  simp [rangeInside]

/-- The range that covers the buffer is inside it. -/
theorem rangeInside_whole (bufLen : Word) : rangeInside 0 bufLen bufLen = true := by
  simp [rangeInside]

@[simp] theorem length_rangeBytes (s : State) (off len : Word) : (s.rangeBytes off len).length = len.toNat := by
  simp [State.rangeBytes]

@[simp] theorem length_allBytes (s : State) : s.allBytes.length = s.bufLen.toNat := by
  simp [State.allBytes]

/-- The whole buffer is the range that covers it (41_update.md R94). -/
theorem rangeBytes_whole (s : State) : s.rangeBytes 0 s.bufLen = s.allBytes := by
  simp [State.rangeBytes, State.allBytes]

end Sys2Proof.Machine
end

