-- ==== Sys2Proof/Laws/PerInstr.lean ====
section
/-! SUPPORT. What holds of every instruction as syntax, one lemma per constructor. -/

namespace Sys2Proof.Laws.EncodingIsCanonical

/-- The encoding carries the instruction's opcode and is canonical (30_encoding.md R52, R53). -/
def Statement (i : Instr) : Prop := opField (encode i) = opcode i ∧ canonicalWord (encode i) = true

/-- A canonical word stays one when it is written from its fields. -/
theorem of_fields {i : Instr} {a b : Word} (h : encode i = commandWord (opcode i) a b)
    (hc : canonicalFields (opcode i) a b = true) : Statement i := by
  simp [Statement, canonicalWord, h, hc]

theorem construct (poly : Word) : Statement (.construct poly) := of_fields rfl rfl

theorem updateByte (bt : Byte) : Statement (.updateByte bt) := by
  refine of_fields rfl ?_
  have h : (bt.setWidth 32).extractLsb' 8 24 = 0 := BitVec.eq_of_getLsbD_eq fun i hi => by simp
  simp [canonicalFields, opcode, h]

theorem updateRange (off len : Word) : Statement (.updateRange off len) := of_fields rfl rfl

theorem updateAll : Statement .updateAll := of_fields rfl rfl

theorem value : Statement .value := of_fields rfl rfl

theorem reset : Statement .reset := of_fields rfl rfl

theorem polynomial : Statement .polynomial := of_fields rfl rfl

end Sys2Proof.Laws.EncodingIsCanonical
end

