-- ==== Sys2Proof/Laws/Step.lean ====
section
/-! SUPPORT. What a step and a run of steps can do. -/

namespace Sys2Proof.Machine

/-- With nothing pending the engine stays as it is. -/
theorem step_of_idle {s : State} (h : s.pending = []) : step s = .next s := by
  simp [step, servePending, h]

/-- With an event pending, a step serves it. -/
theorem step_of_pending {s : State} {e : HostEvent} {rest : List HostEvent} (h : s.pending = e :: rest) :
    step s = serve e { s with pending := rest } := by
  simp [step, servePending, h]

/-- Everything a step can do: stay idle, run a decoded command, refuse a reserved word, or be reset. -/
theorem step_cases (s : State) :
    (s.pending = [] ∧ step s = .next s) ∨
    (∃ p rest i, s.pending = .command p :: rest ∧ decode p.word = .ok i ∧
      step s = exec i { s with pending := rest, bufLen := p.bufLen, mem := p.mem }) ∨
    (∃ p rest, s.pending = .command p :: rest ∧ decode p.word = .error .illegalCommand ∧
      step s = raise .illegalCommand { s with pending := rest, bufLen := p.bufLen, mem := p.mem }) ∨
    (∃ rest, s.pending = .hardwareReset :: rest ∧ step s = .next { s with pending := rest }.hardwareReset) ∨
    (∃ p rest, s.pending = .resetDuring p :: rest ∧
      step s = .next { s with pending := rest, bufLen := p.bufLen, mem := p.mem }.hardwareReset) := by
  cases hp : s.pending with
  | nil => exact .inl ⟨rfl, step_of_idle hp⟩
  | cons e rest =>
    rw [step_of_pending hp]
    cases e with
    | hardwareReset => exact .inr (.inr (.inr (.inl ⟨rest, rfl, rfl⟩)))
    | resetDuring p => exact .inr (.inr (.inr (.inr ⟨p, rest, rfl, rfl⟩)))
    | command p =>
      cases hd : decode p.word with
      | ok i => exact .inr (.inl ⟨p, rest, i, rfl, hd, by simp only [serve, serveCommand, hd]; rfl⟩)
      | error e =>
        cases e
        exact .inr (.inr (.inl ⟨p, rest, rfl, hd, by simp only [serve, serveCommand, hd]; rfl⟩))

/-- A run of `k + 1` steps is a step and then a run of `k`. -/
theorem run_succ {s t : State} (k : Nat) (h : step s = .next t) : Sys2Proof.core.run (k + 1) s = Sys2Proof.core.run k t := by
  simp only [Host.Core.run]
  rw [show Sys2Proof.core.step s = step s from rfl, h]

/-- A run of `j + k` steps is a run of `j` and then one of `k`. -/
theorem run_add {s t : State} (j k : Nat) (h : Sys2Proof.core.run j s = .next t) :
    Sys2Proof.core.run (j + k) s = Sys2Proof.core.run k t := by
  induction j generalizing s with
  | zero =>
    cases h
    rw [Nat.zero_add]
  | succ j ih =>
    rw [Nat.succ_add]
    cases hs : step s with
    | next u =>
      rw [run_succ j hs] at h
      rw [run_succ _ hs]
      exact ih h
    | fault r =>
      simp only [Host.Core.run] at h
      rw [show Sys2Proof.core.step s = step s from rfl, hs] at h
      cases h
    | refused r =>
      simp only [Host.Core.run] at h
      rw [show Sys2Proof.core.step s = step s from rfl, hs] at h
      cases h

end Sys2Proof.Machine
end

