-- ==== Sys2Proof/Tests/Slice0.lean ====
section
/-! SUPPORT. Tests whose expected results are the numbers of spec/95_test_vectors.md and of the rules' worked examples, checks of ill-formed terms, and a witness for every statement that has hypotheses. -/

namespace Sys2Proof.Tests

open Sys2Proof.Machine Sys2Proof.Safety

/-- A configured engine with the given polynomial, checksum and presented buffer. -/
def engine (poly crc : Word) (bytes : List Byte) : State :=
  { State.reset with
    poly := poly, table := buildTable poly, crc := crc, cfg := true
    bufLen := BitVec.ofNat 32 bytes.length, mem := Memory.ofBytes bytes }

/-- DOC1's polynomial of the known vectors. -/
def docPoly : Word := 0xC8DF352F

/-- The nine bytes of 95_test_vectors.md section 4.3. -/
def nine : List Byte := [0x33, 0x22, 0x55, 0xAA, 0xBB, 0xCC, 0xDD, 0xEE, 0xFF]

def crcAfter : Host.Outcome State Fault Refusal → Option Word
  | .next t => some t.crc
  | .fault _ => none
  | .refused _ => none

def responsesAfter : Host.Outcome State Fault Refusal → Option (List RspWord)
  | .next t => some t.responses
  | .fault _ => none
  | .refused _ => none

def entryAfter (n : Byte) : Host.Outcome State Fault Refusal → Option Word
  | .next t => some (tableRead t.table n)
  | .fault _ => none
  | .refused _ => none

/-! ## Ill-formed terms are refused -/

/-- A word with a reserved opcode, an ignored `b` that is not 0, an ignored `a[31:8]` that is not 0, and ignored `a` or
`b` of VALUE that are not 0, are not canonical (section 4.6). -/
theorem test_wellFormed_smoke :
    canonicalWord 0x00000000000000000 = false ∧ canonicalWord 0xFFFFFFFFFFFFFFFFF = false ∧
    canonicalWord 0x1C8DF352FDEADBEEF = false ∧ canonicalWord 0x2FFFFFFF200000000 = false ∧
    canonicalWord 0x200000000F0000001 = false ∧ canonicalWord 0x4FFFFFFFFFFFFFFFF = false ∧
    canonicalWord 0x50000000100000000 = false ∧ canonicalWord 0x60000000000000001 = false ∧
    canonicalWord 0x70000000100000000 = false ∧ canonicalWord 0x3FFFFFFFFFFFFFFFF = true := by decide

/-- No list that is out of order, repeats an index or lists an unlisted byte's value stands for a buffer. -/
theorem test_memory_smoke :
    Memory.wf [(1, 0x05), (0, 0x05)] = false ∧ Memory.wf [(1, 0x05), (1, 0x06)] = false ∧
    Memory.wf [(0, 0x00)] = false ∧ Memory.wf [(0, 0x05), (7, 0x01)] = true := by decide

/-- Numbers that do not fit their fields are no operands (30_encoding.md R60). -/
theorem test_line_smoke :
    (Line.construct (2 ^ 32)).wf = false ∧ (Line.updateByte (2 ^ 32)).wf = false ∧
    (Line.updateRange (2 ^ 32) 0).wf = false ∧ (Line.updateRange 0 (2 ^ 32)).wf = false ∧
    (Line.checksum (2 ^ 32) []).wf = false ∧ (Line.construct 0xFFFFFFFF).wf = true := by decide

/-- A buffer longer than `BUFLEN_MAX`, or with a byte above its length, is not legal (20_memory.md R33). -/
theorem test_legal_smoke :
    presentedLegal 2 3 (Memory.ofBytes [1, 2, 3]) = false ∧
    presentedLegal Config.bufLenMax 2 (Memory.ofBytes [1, 2, 3]) = false ∧
    presentedLegal Config.bufLenMax 3 [(1, 0x00)] = false ∧
    presentedLegal Config.bufLenMax 3 (Memory.ofBytes [1, 2, 3]) = true := by decide

/-! ## Decoding, from the words of section 4.6 and the opcode map of R52 -/

theorem test_decode_construct : decode 0x1FFFFFFFF00000000 = .ok (.construct 0xFFFFFFFF) := by decide
theorem test_decode_updateByte : decode 0x2000000F200000000 = .ok (.updateByte 0xF2) := by decide
theorem test_decode_updateRange : decode 0x30000000400000005 = .ok (.updateRange 4 5) := by decide
theorem test_decode_updateAll : decode 0x40000000000000000 = .ok .updateAll := by decide
theorem test_decode_value : decode 0x50000000000000000 = .ok .value := by decide
theorem test_decode_reset : decode 0x60000000000000000 = .ok .reset := by decide
theorem test_decode_polynomial : decode 0x70000000000000000 = .ok .polynomial := by decide
theorem test_decode_reserved :
    ∀ op : BitVec 4, op = 0 ∨ 8 ≤ op.toNat → decode (commandWord op 0xC8DF352F 1) = .error .illegalCommand := by decide

/-- UPDATE_BYTE 0xF2, bit by bit: op 0010, a with the byte in its low 8 bits, b zero. -/
theorem test_encode_bits :
    encode (.updateByte 0xF2) =
      0b00100000000000000000000000001111001000000000000000000000000000000000 := by decide

/-- The host's numbering of a word, as the table gives it and in whole bytes. -/
theorem test_decodeTableWord :
    decodeTableWord 68 0x30000000400000005 = some (.updateRange 4 5) ∧
    decodeTableWord 72 0x70000000000000000 = some .polynomial ∧ decodeTableWord 68 0 = none := by decide

/-! ## The seven commands, one step each -/

/-- Sections 2 and 4.1: entries of the table of `0xC8DF352F`. -/
theorem test_construct_entries :
    [0x00, 0x01, 0x0D, 0x7F, 0x80, 0xF2, 0xFF].map
        (fun n => entryAfter n (exec (.construct docPoly) State.reset)) =
      [0x00000000, 0x30850FF5, 0xE70725D6, 0x57C9E9B6, 0xC8DF352F, 0x7811F94F, 0x9F16DC99].map some := by
  decide +kernel

/-- Section 4.1: `TABLE[0x7F]` for other polynomials. -/
theorem test_tgen_other_polynomials :
    [0x00000000, 0x00000001, 0x80000000, 0xFFFFFFFF, 0xEDB88320, 0x82F63B78, 0x12345678].map (fun p => tgen p 0x7F) =
      [0x00000000, 0x00000001, 0x7F000000, 0xFE000000, 0xC0BA6CAD, 0x2F8B6829, 0x05534BBF] := by decide +kernel

/-- Section 4.2: UPDATE_BYTE on other starting checksums. -/
theorem test_updateByte :
    crcAfter (exec (.updateByte 0x9A) (engine docPoly 0x12345678 [])) = some 0x33393A6E ∧
    crcAfter (exec (.updateByte 0x80) (engine docPoly 0x80000000 [])) = some 0xA849E9B6 ∧
    crcAfter (exec (.updateByte 0xAB) (engine 0 0 [])) = some 0xFF000000 := by decide +kernel

/-- The step on the word with junk in the ignored bits (section 5, P2 step 12). -/
theorem test_updateByte_ignores_high_bits :
    crcAfter (step ((engine docPoly 0x4CEDB0B4 nine).issue 0x2FFFFFF2200000000)) = some 0x20B70FD6 := by
  decide +kernel

/-- Section 4.3: ranges inside the buffer. -/
theorem test_updateRange_inside :
    crcAfter (exec (.updateRange 4 5) (engine docPoly 0xB76D90F4 nine)) = some 0xA65A343D ∧
    crcAfter (exec (.updateRange 8 1) (engine docPoly 0 nine)) = some 0xFF000000 ∧
    crcAfter (exec (.updateRange 9 0) (engine docPoly 0x12345678 nine)) = some 0x12345678 := by decide +kernel

/-- 41_update.md R96, the rule's table: the response word of each row. -/
theorem test_updateRange_bounds :
    [((9 : Nat), (0 : Word), (9 : Word)), (9, 4, 5), (9, 9, 0), (9, 4, 6), (9, 10, 0), (9, 0, 10), (0, 0, 0), (0, 0, 1),
        (9, 0xFFFFFFFF, 2), (9, 0xFFFFFFFF, 0xFFFFFFFF)].map
      (fun r => responsesAfter (exec (.updateRange r.2.1 r.2.2) (engine docPoly 0 (nine.take r.1)))) =
      [0, 0, 0, 0x100000000, 0x100000000, 0x100000000, 0, 0x100000000, 0x100000000, 0x100000000].map
        (fun w => some [w]) := by decide +kernel

/-- Section 1: DOC1's seven known vectors, V1 to V7. -/
theorem test_updateAll_known_vectors :
    [[0x00, 0x00, 0x00, 0x00], [0xF2, 0x01, 0x83], [0x0F, 0xAA, 0x00, 0x55], [0x00, 0xFF, 0x55, 0x11], nine,
        [0x92, 0x6B, 0x55], [0xFF, 0xFF, 0xFF, 0xFF]].map
      (fun bytes => crcAfter (exec .updateAll (engine docPoly 0 bytes))) =
      [0x6FB32240, 0x4F721A25, 0x20662DF8, 0x9BD7996E, 0xA65A343D, 0xEE688A78, 0xFFFFFFFF].map some := by
  decide +kernel

/-- Sections 4.3 and 6: a second pass, an empty buffer, other polynomials. -/
theorem test_updateAll_others :
    crcAfter (exec .updateAll (engine docPoly 0xA65A343D nine)) = some 0xF29501AA ∧
    crcAfter (exec .updateAll (engine docPoly 0x12345678 [])) = some 0x12345678 ∧
    crcAfter (exec .updateAll (engine 0xEDB88320 0 [0x31, 0x32, 0x33, 0x34, 0x35, 0x36, 0x37, 0x38, 0x39])) =
      some 0xCBF43926 ∧
    crcAfter (exec .updateAll (engine 0x12345678 0 [0xF2, 0x01, 0x83])) = some 0xE8A0A4BE := by decide +kernel

/-- Section 4.4. -/
theorem test_value :
    responsesAfter (exec .value (engine docPoly 0xA65A343D [])) = some [0x0A65A343D] ∧
    responsesAfter (exec .value State.reset) = some [0x200000000] := by decide +kernel

theorem test_reset :
    crcAfter (exec .reset (engine docPoly 0xA65A343D [])) = some 0 ∧
    responsesAfter (exec .reset State.reset) = some [0x200000000] := by decide +kernel

theorem test_polynomial :
    responsesAfter (exec .polynomial (engine docPoly 0x12345678 [])) = some [0x0C8DF352F] ∧
    responsesAfter (exec .polynomial State.reset) = some [0x200000000] := by decide +kernel

/-! ## The step -/

/-- Section 4.5: the first command after reset, by its word: the response word each gets. -/
theorem test_first_command_after_reset :
    [0x00000000000000000, 0xFFFFFFFFFFFFFFFFF, 0x2000000F200000000, 0x30000000100000003, 0x40000000000000000,
        0x10000000000000000].map (fun w => responsesAfter (step (State.reset.withFetchWord 68 w))) =
      [0x300000000, 0x300000000, 0x200000000, 0x200000000, 0x200000000, 0].map (fun w => some [w]) := by
  decide +kernel

/-- Section 4.5: the same range on a configured engine with three bytes presented. -/
theorem test_range_priority :
    responsesAfter (step ((engine docPoly 0 [0x92, 0x6B, 0x55]).issue 0x30000000100000003)) = some [0x100000000] ∧
    responsesAfter (step ((engine docPoly 0 [0x92, 0x6B, 0x55]).issue 0x30000000100000002)) = some [0] ∧
    responsesAfter (step ((engine docPoly 0xEE688A78 []).issue 0x90000000100000002)) = some [0x300000000] := by
  decide +kernel

/-- A hardware reset gives no response word and clears `CFG` (70_reset_and_hazards.md R140). -/
theorem test_hardware_reset :
    (engine docPoly 5 nine).hardwareReset.cfg = false ∧ (engine docPoly 5 nine).hardwareReset.responses = [] := by
  decide +kernel

/-- Section 5, P1: the command words of the program, from its text. -/
theorem test_assemble_P1 :
    (assemble [] [.construct 0xC8DF352F, .value, .updateByte 0xF2, .updateBytes [0x01, 0x83], .value, .polynomial]).map
      (fun e => match e with
        | .command p => some p.word
        | .hardwareReset => none
        | .resetDuring _ => none) =
      [0x1C8DF352F00000000, 0x50000000000000000, 0x2000000F200000000, 0x20000000100000000, 0x20000008300000000,
        0x50000000000000000, 0x70000000000000000].map some := by decide +kernel

/-! ## Witnesses: states and operands that meet the hypotheses of the statements -/

/-- An engine with one event pending. -/
def withEvent (e : HostEvent) (s : State) : State := { s with pending := [e] }

/-- A presented VALUE. -/
def valueNow : Presented := ⟨0x50000000000000000, 0, []⟩

theorem engine_tableInv (poly crc : Word) (bytes : List Byte) : TableInv (engine poly crc bytes) :=
  fun _ n => tableRead_buildTable poly n

theorem witness_DecodeOfEncodeIsTheCommand : (Instr.updateRange 0xFFFFFFFF 0xFFFFFFFF).wellFormed = true := rfl

theorem witness_EncodeOfDecodeOnlyForCanonicalWords :
    decode 0x2FFFFFFF2DEADBEEF = .ok (.updateByte 0xF2) ∧ canonicalWord 0x2FFFFFFF2DEADBEEF = false ∧
    decode 0x2000000F200000000 = .ok (.updateByte 0xF2) ∧ canonicalWord 0x2000000F200000000 = true := by decide

theorem witness_IgnoredFieldsAreNotExamined :
    (0x000001F2 : Word).extractLsb' 0 8 = (0xFFFFFFF2 : Word).extractLsb' 0 8 ∧
    (0x4 : BitVec 4) ∈ [(0x4 : BitVec 4), 0x5, 0x6, 0x7] ∧ (0x7 : BitVec 4) ∈ [(0x4 : BitVec 4), 0x5, 0x6, 0x7] ∧
    (0x1 : BitVec 4) ∈ [(0x1 : BitVec 4), 0x2, 0x3, 0x4, 0x5, 0x6, 0x7] ∧
    decode 0x5123456789ABCDEF0 = decode 0x50000000000000000 ∧
    Instr.updateAll ∈ [Instr.updateAll, .value, .reset, .polynomial] := by decide

theorem witness_ReservedOpcodesAreIllegalCommands :
    (withEvent (.command ⟨0x8C8DF352F00000000, 0, []⟩) State.reset).pending = [.command ⟨0x8C8DF352F00000000, 0, []⟩] ∧
    opField 0x00000000000000000 ∈ reservedOpcodes ∧ opField 0x8C8DF352F00000000 ∈ reservedOpcodes ∧
    opField 0xFFFFFFFFFFFFFFFFF ∈ reservedOpcodes ∧ opField 0x10000000000000000 ∉ reservedOpcodes ∧
    opField 0x70000000000000000 ∉ reservedOpcodes := by decide

/-- A command pending: EveryCommandHasOneResponseWord, ResponseDataOfEveryCommand, StepRunsTheDecodedCommand and
FaultPriority, with the decoded command of the last two. -/
theorem witness_command_pending :
    (withEvent (.command valueNow) State.reset).pending = [.command valueNow] ∧ decode valueNow.word = .ok .value := by
  decide

theorem witness_IdleEngineStaysAsItIs : State.reset.pending = [] := rfl

theorem witness_HardwareResetClearsConfigured :
    (withEvent .hardwareReset (engine docPoly 0 [])).pending = [.hardwareReset] ∧
    (withEvent (.resetDuring valueNow) (engine docPoly 0 [])).pending = [.resetDuring valueNow] := ⟨rfl, rfl⟩

theorem witness_ResetStateIsUnconfigured : ∀ p, Instr.value ≠ .construct p := by simp

/-- Two polynomials with the same eight entries (they are then equal, by R77). -/
theorem witness_TableGeneratorIsLinear :
    ∀ i < 8, tgen docPoly (BitVec.twoPow 8 i) = tgen 0xC8DF352F (BitVec.twoPow 8 i) := fun _ _ => rfl

theorem witness_PowerOfTwoEntries :
    0 ≤ 7 ∧ 7 ≤ 7 ∧ TableInv (engine docPoly 0 []) ∧ (engine docPoly 0 []).cfg = true :=
  ⟨by decide, by decide, engine_tableInv docPoly 0 [], rfl⟩

theorem witness_DegeneratePolynomials :
    (0x00000000 : Word) ∈ [(0x00000000 : Word), 0x80000000] ∧ (0x80000000 : Word) ∈ [(0x00000000 : Word), 0x80000000] := by
  decide

theorem witness_UpdateByteFoldsItsByte :
    State.reset.cfg = false ∧ (engine docPoly 0 []).cfg = true ∧
    (engine docPoly 0 []).table = buildTable 0xC8DF352F ∧ (engine docPoly 0 []).crc = 0x00000000 := ⟨rfl, rfl, rfl, rfl⟩

/-- `off + len` equal to `BUFLEN`, one above it, and both operands at their largest. -/
theorem witness_UpdateRangeFoldsTheRange :
    (engine docPoly 0 nine).cfg = true ∧ State.reset.cfg = false ∧
    (4 : Word).toNat + (5 : Word).toNat ≤ (engine docPoly 0 nine).bufLen.toNat ∧
    (engine docPoly 0 nine).bufLen.toNat < (4 : Word).toNat + (6 : Word).toNat ∧
    (engine docPoly 0 nine).bufLen.toNat < (0xFFFFFFFF : Word).toNat + (0xFFFFFFFF : Word).toNat := by decide

theorem witness_UpdateRange_example :
    (engine docPoly 0xB76D90F4 nine).table = buildTable 0xC8DF352F ∧ (engine docPoly 0xB76D90F4 nine).bufLen = 9 ∧
    (engine docPoly 0xB76D90F4 nine).mem = Memory.ofBytes [0x33, 0x22, 0x55, 0xAA, 0xBB, 0xCC, 0xDD, 0xEE, 0xFF] ∧
    (engine docPoly 0xB76D90F4 nine).crc = 0xB76D90F4 ∧ (engine docPoly 0 nine).crc = 0x00000000 :=
  ⟨rfl, rfl, rfl, rfl, rfl⟩

theorem witness_UpdateAllFoldsTheBuffer :
    (engine docPoly 0 [0xF2, 0x01, 0x83]).cfg = true ∧ State.reset.cfg = false ∧
    (engine docPoly 0 [0xF2, 0x01, 0x83]).table = buildTable 0xC8DF352F ∧
    (engine docPoly 0 [0xF2, 0x01, 0x83]).crc = 0x00000000 ∧ (engine docPoly 0 [0xF2, 0x01, 0x83]).bufLen = 3 ∧
    (engine docPoly 0 [0xF2, 0x01, 0x83]).mem = Memory.ofBytes [0xF2, 0x01, 0x83] := ⟨rfl, rfl, rfl, rfl, rfl, rfl⟩

/-- Either side of the bound, and an empty range just beyond the end. -/
theorem witness_BoundsViolationExactlyOutsideTheBuffer :
    (engine docPoly 0 nine).cfg = true ∧ (engine docPoly 0 nine).bufLen.toNat < (10 : Word).toNat + (0 : Word).toNat ∧
    (9 : Word).toNat + (0 : Word).toNat ≤ (engine docPoly 0 nine).bufLen.toNat ∧
    (engine docPoly 0 nine).bufLen.toNat < (10 : Word).toNat := by decide

theorem witness_EmptyUpdateChangesNothing :
    (engine docPoly 0 nine).cfg = true ∧ (9 : Word).toNat ≤ (engine docPoly 0 nine).bufLen.toNat ∧
    (engine docPoly 5 []).cfg = true ∧ (engine docPoly 5 []).bufLen = 0 := by decide

/-- The bytes of vector V2 once as one UPDATE_ALL and once as a byte, a readout and a range. -/
theorem witness_AnyMixtureOfShapesFoldsTheSameBytes :
    (engine docPoly 0 []).cfg = true ∧
    [presentedWith [0xF2, 0x01, 0x83] .updateAll].mapM foldedBytes = some [[0xF2, 0x01, 0x83]] ∧
    [presentedWith [] (.updateByte 0xF2), valueNow, presentedWith [0x00, 0x01, 0x83] (.updateRange 1 2)].mapM
      foldedBytes = some [[0xF2], [], [0x01, 0x83]] ∧
    [[(0xF2 : Byte), 0x01, 0x83]].flatten = [[(0xF2 : Byte)], [], [0x01, 0x83]].flatten := by decide +kernel

/-- Nine bytes cut into 4, 0 and 5, with a readout between the ranges. -/
theorem witness_PartitionedFeedEndsAsTheWhole :
    (engine docPoly 0 []).cfg = true ∧ [4, 0, 5].sum = (9 : Word).toNat ∧
    (.command ⟨encode (.updateRange 0 4), 9, Memory.ofBytes nine⟩ :: .command valueNow ::
      tiles 9 (Memory.ofBytes nine) 4 [0, 5]).filter (fun e => !isReadout e) =
      tiles 9 (Memory.ofBytes nine) 0 [4, 0, 5] := by decide +kernel

/-- A table of the generator: TableDrivenEqualsBitSerial, ComplementFreeUpdate, ResultsForEveryPolynomial. -/
theorem witness_table_of_the_generator (p : Word) : ∀ n : Byte, tableRead (buildTable p) n = tgen p n :=
  tableRead_buildTable p

theorem witness_ResultsForEveryPolynomial :
    (0x000000FF : Word).extractLsb' 0 8 ^^^ (0xFF : Byte) = 0 ∧
    (∀ n : Byte, tableRead (buildTable 0x00000000) n = tgen 0x00000000 n) ∧
    4 ≤ [(0x12 : Byte), 0x34, 0x56, 0x78].length := ⟨by decide, tableRead_buildTable _, by decide⟩

theorem witness_ChecksumOfAnyBufferIsTheReflectedCrc : nine.length < 2 ^ 32 := by decide

theorem witness_ValueAnswersTheStoredChecksum :
    State.reset.cfg = false ∧ (engine docPoly 0x4F721A25 []).cfg = true ∧
    (engine docPoly 0x4F721A25 []).crc = updSeq (buildTable 0xC8DF352F) 0 [0xF2, 0x01, 0x83] := by decide +kernel

/-- Both values of `CFG`: ResetCommandClearsTheChecksumOnly, PolynomialAnswersTheOperandOfConstruct,
ResetActsAsConstructWithTheSamePolynomial, PseudoOperationsExpand. -/
theorem witness_configured_and_not :
    State.reset.cfg = false ∧ (engine docPoly 0x4F721A25 []).cfg = true ∧ TableInv (engine docPoly 0x4F721A25 []) :=
  ⟨rfl, rfl, engine_tableInv docPoly 0x4F721A25 []⟩

/-- Commands between CONSTRUCT and POLYNOMIAL, none of them a CONSTRUCT: a readout, a reserved word and an update. -/
theorem witness_PolynomialAnswersTheOperandOfConstruct :
    ∀ p ∈ [valueNow, ⟨0x00000000000000000, 0, []⟩, presentedWith nine .updateAll], ∀ q,
      decode p.word ≠ .ok (.construct q) := by
  intro p hp q h
  simp only [List.mem_cons, List.not_mem_nil, or_false] at hp
  rcases hp with rfl | rfl | rfl <;> cases h

theorem witness_ReadoutsDoNotDisturb :
    decode 0x5AAAAAAAA55555555 = .ok .value ∧ decode 0x70000000000000000 = .ok .polynomial := by decide

/-- ReadoutsDoNotDisturb, its two clauses on the registers: events that are all commands, and a run with a hardware reset
that ends configured. -/
theorem witness_ReadoutsDoNotDisturb_registers :
    (∀ e ∈ [HostEvent.command valueNow] ++ [.command (presentedWith nine .updateAll)], ∃ q, e = .command q) ∧
    ∃ t, runEvents ([.hardwareReset] ++ .command valueNow :: [.command (presentedWith [] (.construct docPoly))])
      (engine docPoly 5 []) = .next t ∧ t.cfg = true := by
  refine ⟨fun e he => ?_, _, rfl, rfl⟩
  simp only [List.cons_append, List.nil_append, List.mem_cons, List.not_mem_nil, or_false] at he
  rcases he with rfl | rfl <;> exact ⟨_, rfl⟩

/-- ResponsesAreNeverRead, its last clause: nothing pending, and a command pending. -/
theorem witness_ResponsesAreNeverRead :
    State.reset.pending = [] ∧
    ∃ p rest, (withEvent (.command valueNow) (engine docPoly 5 nine)).pending = .command p :: rest :=
  ⟨rfl, _, _, rfl⟩

theorem witness_NotConfiguredBeforeConstruct :
    State.reset.cfg = false ∧ ∀ p, Instr.updateByte 0 ≠ .construct p := ⟨rfl, by simp⟩

/-- A step that ends in a fault: VALUE just after reset. -/
theorem witness_FaultingCommandChangesNothing :
    (withEvent (.command valueNow) State.reset).pending = [.command valueNow] ∧
    step (withEvent (.command valueNow) State.reset) = .next (State.reset.respond .notConfigured 0) ∧
    (State.reset.respond .notConfigured 0).responses = State.reset.responses ++ [0x200000000] ∧
    statusField 0x200000000 ≠ 0 := ⟨rfl, rfl, rfl, by decide⟩

/-- A command that answers a next state: EveryCommandLeavesTheRestUnchanged, EngineNeverWritesTheBuffer,
TableInvariantIsKept. -/
theorem witness_command_answers :
    exec .value (engine docPoly 5 nine) = .next ((engine docPoly 5 nine).respond .ok 5) ∧
    (∀ p, Instr.value ≠ .construct p) ∧
    exec (.construct docPoly) State.reset = .next ((State.reset.load docPoly (buildTable docPoly)).respond .ok 0) :=
  ⟨rfl, by simp, rfl⟩

/-- Two buffers that agree on the range 4..8 only, and two that agree below `BUFLEN` only. -/
theorem witness_OnlyTheRangeIsRead :
    (∀ a, (4 : Word).toNat ≤ a → a < (4 : Word).toNat + (2 : Word).toNat → a < (engine docPoly 0 nine).bufLen.toNat →
      Memory.read [(4, 0xBB), (5, 0xCC), (7, 0x01)] a = (engine docPoly 0 nine).mem.read a) ∧
    (∀ a, a < (engine docPoly 0 [0x11]).bufLen.toNat →
      Memory.read [(0, 0x11), (7, 0x01)] a = (engine docPoly 0 [0x11]).mem.read a) := by
  constructor
  · intro a h1 h2 _
    have h1 : 4 ≤ a := h1
    have h2 : a < 6 := h2
    interval_cases a <;> rfl
  · intro a h
    have h : a < 1 := h
    interval_cases a
    rfl

/-- The steps that change registers: CONSTRUCT at `CFG = 0`, a hardware reset at `CFG = 1`, a readout, CONSTRUCT at
`CFG = 1`, RESET at `CRC ≠ 0`. -/
theorem witness_RegistersChangeOnlyByTheirWriters :
    (∃ t, step (State.reset.issue (encode (.construct docPoly))) = .next t ∧ State.reset.cfg = false ∧ t.cfg = true) ∧
    (∃ t, step (withEvent .hardwareReset (engine docPoly 5 [])) = .next t ∧
      (withEvent .hardwareReset (engine docPoly 5 [])).cfg = true ∧ t.cfg = false) ∧
    (∃ t, step (withEvent (.command valueNow) (engine docPoly 5 [])) = .next t ∧ decode valueNow.word = .ok .value) ∧
    (∃ t, step ((engine 1 5 []).issue (encode (.construct 2))) = .next t ∧ t.poly ≠ (engine 1 5 []).poly) ∧
    (∃ t, step ((engine 1 5 []).issue (encode .reset)) = .next t ∧ t.crc ≠ (engine 1 5 []).crc) :=
  ⟨⟨_, rfl, rfl, rfl⟩, ⟨_, rfl, rfl, rfl⟩, ⟨_, rfl, rfl⟩, ⟨_, rfl, show (2 : Word) ≠ 1 by decide⟩,
    ⟨_, rfl, show (0 : Word) ≠ 5 by decide⟩⟩

/-- A state with a buffer on the port and a command pending that meets the invariants, and its step. -/
theorem witness_invariants_kept :
    TableInv (withEvent (.command valueNow) (engine docPoly 5 nine)) ∧
    memoryWf (withEvent (.command valueNow) (engine docPoly 5 nine)) = true ∧
    hostLegal Config.bufLenMax (withEvent (.command valueNow) (engine docPoly 5 nine)) = true ∧
    ∃ t, step (withEvent (.command valueNow) (engine docPoly 5 nine)) = .next t :=
  ⟨engine_tableInv docPoly 5 nine, by decide +kernel, by decide +kernel, _, rfl⟩

/-- Two engines that are not configured and differ in every register. -/
theorem witness_PowerOnContentsAreNeverObserved :
    ({ engine 1 2 [] with cfg := false } : State).cfg = false ∧ ({ engine 3 4 [] with cfg := false } : State).cfg = false ∧
    ({ engine 1 2 [] with cfg := false } : State).pending = ({ engine 3 4 [] with cfg := false } : State).pending ∧
    ({ engine 1 2 [] with cfg := false } : State).poly ≠ ({ engine 3 4 [] with cfg := false } : State).poly :=
  ⟨rfl, rfl, rfl, show (1 : Word) ≠ 3 by decide⟩

/-- Two engines that agree: not configured with every register different, and configured with other responses. -/
theorem witness_AgreementOfTwoEnginesIsKept :
    Agree { engine 1 2 [] with cfg := false } { engine 3 4 [] with cfg := false } ∧
    Agree (engine docPoly 5 nine) ((engine docPoly 5 nine).respond .ok 0) :=
  ⟨⟨rfl, rfl, fun h => by cases h⟩, rfl, rfl, fun _ => ⟨rfl, rfl, rfl, rfl⟩⟩

end Sys2Proof.Tests
end

section
/-! PROOFS. 00_scope.md: the bit step and the table generator. -/

namespace Sys2Proof.Machine

/-- 00_scope.md R7: with bit 0 of `c` set, the bit step shifts `c` and folds the polynomial in. -/
theorem step1_of_low_bit_set (p : Word) {c : Word} (h : c.getLsbD 0 = true) : step1 p c = p ^^^ (c >>> 1) :=
  if_pos h

/-- 00_scope.md R7: with bit 0 of `c` clear, the bit step only shifts, whatever the polynomial. -/
theorem step1_of_low_bit_clear (p : Word) {c : Word} (h : c.getLsbD 0 = false) : step1 p c = c >>> 1 :=
  if_neg (ne_true_of_eq_false h)

/-- The mask form of the bit step (00_scope.md R7): the polynomial under 32 copies of bit 0 is the polynomial itself
when the bit is set, and 0, which XOR does not see, when it is clear. -/
theorem step1_eq_shift_xor_masked (p c : Word) :
    step1 p c = (c >>> 1) ^^^ (p &&& (if c.getLsbD 0 then 0xFFFFFFFF else 0x00000000)) := by
  cases h : c.getLsbD 0 with
  | true =>
    have mask_keeps : p &&& 0xFFFFFFFF = p := BitVec.and_allOnes
    rw [step1_of_low_bit_set p h, if_pos rfl, mask_keeps, BitVec.xor_comm]
  | false =>
    have mask_clears : p &&& 0x00000000 = 0#32 := BitVec.and_zero
    rw [step1_of_low_bit_clear p h, if_neg Bool.false_ne_true, mask_clears, BitVec.xor_zero]

/-- The generator written out (00_scope.md R8): its count of bit steps is eight, one for each bit of the byte. -/
theorem tgen_eq_eight_step1 (p : Word) (n : Byte) :
    tgen p n =
      step1 p (step1 p (step1 p (step1 p (step1 p (step1 p (step1 p (step1 p (n.setWidth 32)))))))) := by
  simp only [tgen, bitSteps_succ, bitSteps_zero]

/-- Settles O14: the first form is the definition of the bit step; the mask form follows by cases on bit 0; the
generator is its eight steps written out. -/
theorem bitStepAndGenerator : Obligations.BitStepAndGenerator :=
  ⟨fun _ _ => rfl, step1_eq_shift_xor_masked, tgen_eq_eight_step1⟩

end Sys2Proof.Machine
end

section
/-! PROOFS. What every command answers, and with it the frame of every command. -/

namespace Sys2Proof.Machine

open Sys2Proof.Safety

/-! ## An equation per command -/

theorem exec_construct (a : Word) (s : State) :
    exec (.construct a) s = .next ((s.load a (buildTable a)).respond .ok 0) := rfl

theorem exec_updateByte_of_configured {s : State} (h : s.cfg = true) (bt : Byte) :
    exec (.updateByte bt) s = .next ((s.writeCrc (updb s.table s.crc bt)).respond .ok 0) :=
  ifConfigured_of_configured h _

theorem exec_updateRange_inside {s : State} (h : s.cfg = true) {off len : Word}
    (hb : off.toNat + len.toNat ≤ s.bufLen.toNat) :
    exec (.updateRange off len) s =
      .next ((s.writeCrc (updSeq s.table s.crc (s.rangeBytes off len))).respond .ok 0) :=
  (ifConfigured_of_configured h _).trans (if_pos ((rangeInside_iff off len s.bufLen).mpr hb))

theorem exec_updateRange_outside {s : State} (h : s.cfg = true) {off len : Word}
    (hb : ¬ off.toNat + len.toNat ≤ s.bufLen.toNat) :
    exec (.updateRange off len) s = .next (s.respond .boundsViolation 0) :=
  (ifConfigured_of_configured h _).trans (if_neg (mt (rangeInside_iff off len s.bufLen).mp hb))

theorem exec_updateAll_of_configured {s : State} (h : s.cfg = true) :
    exec .updateAll s = .next ((s.writeCrc (updSeq s.table s.crc s.allBytes)).respond .ok 0) :=
  ifConfigured_of_configured h _

theorem exec_value_of_configured {s : State} (h : s.cfg = true) :
    exec .value s = .next (s.respond .ok s.crc) :=
  ifConfigured_of_configured h _

theorem exec_reset_of_configured {s : State} (h : s.cfg = true) :
    exec .reset s = .next ((s.writeCrc 0).respond .ok 0) :=
  ifConfigured_of_configured h _

theorem exec_polynomial_of_configured {s : State} (h : s.cfg = true) :
    exec .polynomial s = .next (s.respond .ok s.poly) :=
  ifConfigured_of_configured h _

/-- 60_exceptions.md R122: every command but CONSTRUCT stands behind the gate on `CFG`. -/
theorem exec_of_unconfigured {s : State} (h : s.cfg = false) {i : Instr} (hi : ∀ a, i ≠ .construct a) :
    exec i s = .next (s.respond .notConfigured 0) := by
  cases i with
  | construct a => exact absurd rfl (hi a)
  | updateByte bt => exact ifConfigured_of_not h _
  | updateRange off len => exact ifConfigured_of_not h _
  | updateAll => exact ifConfigured_of_not h _
  | value => exact ifConfigured_of_not h _
  | reset => exact ifConfigured_of_not h _
  | polynomial => exact ifConfigured_of_not h _

/-! ## What all commands have in common -/

theorem construct_or_not (i : Instr) : (∃ a, i = .construct a) ∨ ∀ a, i ≠ .construct a :=
  (em _).imp_right not_exists.mp

/-- On a configured engine a command other than CONSTRUCT writes one word to `CRC` and answers one response. The word
and the response do not depend on the record of responses or on the count of free values, and a command that is no
writer of `CRC` (10_state.md R10) puts back what stands there. -/
theorem exec_of_configured {s : State} (h : s.cfg = true) {i : Instr} (hi : ∀ a, i ≠ .construct a) :
    ∃ crc st data, (writesCrc i = false → crc = s.crc) ∧ ∀ record draws,
      exec i { s with responses := record, draws := draws } =
        .next (({ s with responses := record, draws := draws }.writeCrc crc).respond st data) := by
  have hc (record draws) : { s with responses := record, draws := draws }.cfg = true := h
  cases i with
  | construct a => exact absurd rfl (hi a)
  | updateByte bt =>
    exact ⟨updb s.table s.crc bt, .ok, 0, nofun, fun r d => exec_updateByte_of_configured (hc r d) bt⟩
  | updateRange off len =>
    by_cases hb : off.toNat + len.toNat ≤ s.bufLen.toNat
    · exact ⟨updSeq s.table s.crc (s.rangeBytes off len), .ok, 0, nofun, fun r d => exec_updateRange_inside (hc r d) hb⟩
    · exact ⟨s.crc, .boundsViolation, 0, nofun, fun r d => exec_updateRange_outside (hc r d) hb⟩
  | updateAll =>
    exact ⟨updSeq s.table s.crc s.allBytes, .ok, 0, nofun, fun r d => exec_updateAll_of_configured (hc r d)⟩
  | value => exact ⟨s.crc, .ok, s.crc, fun _ => rfl, fun r d => exec_value_of_configured (hc r d)⟩
  | reset => exact ⟨0, .ok, 0, nofun, fun r d => exec_reset_of_configured (hc r d)⟩
  | polynomial => exact ⟨s.crc, .ok, s.poly, fun _ => rfl, fun r d => exec_polynomial_of_configured (hc r d)⟩

/-- A command other than CONSTRUCT writes at most `CRC` and answers one response, in every state. -/
theorem exec_eq_writeCrc_respond (s : State) {i : Instr} (hi : ∀ a, i ≠ .construct a) :
    ∃ crc st data, (writesCrc i = false → crc = s.crc) ∧ exec i s = .next ((s.writeCrc crc).respond st data) := by
  cases hc : s.cfg with
  | false => exact ⟨s.crc, _, _, fun _ => rfl, exec_of_unconfigured hc hi⟩
  | true =>
    obtain ⟨crc, st, data, hcrc, hexec⟩ := exec_of_configured hc hi
    exact ⟨crc, st, data, hcrc, hexec s.responses s.draws⟩

/-- Everything a command can do: load every register (CONSTRUCT), or write at most `CRC`; and one response. -/
theorem exec_cases (i : Instr) (s : State) :
    (∃ a, i = .construct a ∧ exec i s = .next ((s.load a (buildTable a)).respond .ok 0)) ∨
    ((∀ a, i ≠ .construct a) ∧ ∃ crc st data, (writesCrc i = false → crc = s.crc) ∧
      exec i s = .next ((s.writeCrc crc).respond st data)) := by
  obtain ⟨a, rfl⟩ | hi := construct_or_not i
  · exact .inl ⟨a, rfl, exec_construct a s⟩
  · exact .inr ⟨hi, exec_eq_writeCrc_respond s hi⟩

/-! ## Serving a command event -/

theorem serveCommand_of_ok {p : Presented} {i : Instr} (hd : decode p.word = .ok i) (s : State) :
    serveCommand p s = exec i (s.present p) := by
  simp only [serveCommand, hd]

theorem serveCommand_of_illegal {p : Presented} (hd : decode p.word = .error .illegalCommand) (s : State) :
    serveCommand p s = .next ((s.present p).respond .illegalCommand 0) := by
  simp only [serveCommand, hd, raise_eq]

theorem step_of_command {s : State} {p : Presented} {rest : List HostEvent} {i : Instr}
    (hp : s.pending = .command p :: rest) (hd : decode p.word = .ok i) :
    step s = exec i ({ s with pending := rest }.present p) := by
  rw [step_of_pending hp]
  exact serveCommand_of_ok hd _

/-! ## The frame of every command (10_state.md, the access matrix after R19) -/

/-- No command touches the buffer port, the host's events or the count of free values, and each gives one response. -/
theorem exec_ports {i : Instr} {s t : State} (h : exec i s = .next t) :
    t.mem = s.mem ∧ t.bufLen = s.bufLen ∧ t.pending = s.pending ∧ t.draws = s.draws ∧
      ∃ r, t.responses = s.responses ++ [r] := by
  obtain ⟨a, -, he⟩ | ⟨-, crc, st, data, -, he⟩ := exec_cases i s
  · cases he.symm.trans h
    exact ⟨rfl, rfl, rfl, rfl, _, rfl⟩
  · cases he.symm.trans h
    exact ⟨rfl, rfl, rfl, rfl, _, rfl⟩

/-- 10_state.md R11, R14, R16: `POLY`, `TABLE` and `CFG` are written by CONSTRUCT alone. -/
theorem exec_keeps_poly_table_cfg {i : Instr} {s t : State} (hi : ∀ a, i ≠ .construct a) (h : exec i s = .next t) :
    t.poly = s.poly ∧ t.table = s.table ∧ t.cfg = s.cfg := by
  obtain ⟨crc, st, data, -, he⟩ := exec_eq_writeCrc_respond s hi
  cases he.symm.trans h
  exact ⟨rfl, rfl, rfl⟩

/-- A command that does not stand in the column "written by" of `CRC` leaves it (10_state.md R10). -/
theorem exec_keeps_crc {i : Instr} {s t : State} (hi : writesCrc i = false) (h : exec i s = .next t) :
    t.crc = s.crc := by
  obtain ⟨a, rfl, -⟩ | ⟨-, crc, st, data, hcrc, he⟩ := exec_cases i s
  · cases hi
  · cases he.symm.trans h
    exact hcrc hi

/-- VALUE and POLYNOMIAL are no writers of `CRC`. -/
theorem writesCrc_of_readout {i : Instr} (h : i = .value ∨ i = .polynomial) : writesCrc i = false := by
  obtain rfl | rfl := h <;> rfl

/-- Settles O42: the ports by `exec_ports`, the registers by the two lemmas on their writers. -/
theorem everyCommandLeavesTheRestUnchanged : Obligations.EveryCommandLeavesTheRestUnchanged := by
  intro i s t h
  obtain ⟨hmem, hlen, hpending, hdraws, hresponse⟩ := exec_ports h
  exact ⟨fun a => by rw [hmem], hmem, hlen, hpending, hdraws, fun hi => exec_keeps_poly_table_cfg hi h,
    fun hi => exec_keeps_crc (writesCrc_of_readout hi) h, hresponse⟩

end Sys2Proof.Machine
end

section
/-! PROOFS. 10_state.md R15: the table invariant. -/

namespace Sys2Proof.Machine

open Sys2Proof.Safety

theorem tableInv_of_unconfigured {s : State} (h : s.cfg = false) : TableInv s :=
  fun hc => absurd (h.symm.trans hc) Bool.false_ne_true

/-- The table invariant speaks of `CFG`, `POLY` and `TABLE` only. -/
theorem tableInv_congr {s t : State} (hpoly : t.poly = s.poly) (htable : t.table = s.table) (hcfg : t.cfg = s.cfg)
    (h : TableInv s) : TableInv t := by
  intro hc n
  rw [htable, hpoly]
  exact h (hcfg.symm.trans hc) n

/-- CONSTRUCT establishes the invariant whatever the state was (40_construct.md R71). -/
theorem exec_construct_tableInv {a : Word} {s t : State} (h : exec (.construct a) s = .next t) : TableInv t := by
  cases h
  exact fun _ n => tableRead_buildTable a n

theorem exec_keeps_tableInv {i : Instr} {s t : State} (hs : TableInv s) (h : exec i s = .next t) : TableInv t := by
  obtain ⟨a, rfl⟩ | hi := construct_or_not i
  · exact exec_construct_tableInv h
  · obtain ⟨hpoly, htable, hcfg⟩ := exec_keeps_poly_table_cfg hi h
    exact tableInv_congr hpoly htable hcfg hs

/-- By the cases of `step_cases`, in order: idle, a command, a reserved word, and the two hardware resets, which clear
`CFG`. -/
theorem step_keeps_tableInv {s t : State} (hs : TableInv s) (h : step s = .next t) : TableInv t := by
  obtain ⟨-, he⟩ | ⟨p, rest, i, -, -, he⟩ | ⟨p, rest, -, -, he⟩ | ⟨rest, -, he⟩ | ⟨p, rest, -, he⟩ := step_cases s
  · cases he.symm.trans h
    exact hs
  · have taken : TableInv { s with pending := rest, bufLen := p.bufLen, mem := p.mem } := tableInv_congr rfl rfl rfl hs
    exact exec_keeps_tableInv taken (he.symm.trans h)
  · cases he.symm.trans h
    exact tableInv_congr rfl rfl rfl hs
  · cases he.symm.trans h
    exact tableInv_of_unconfigured rfl
  · cases he.symm.trans h
    exact tableInv_of_unconfigured rfl

/-- Settles O46: CONSTRUCT builds the table of its operand, the frame of the other commands, and the step by its
cases. -/
theorem tableInvariantIsKept : Obligations.TableInvariantIsKept := by
  refine ⟨fun a s t h => exec_construct_tableInv h, fun i s t hi h => ?_, fun s t => step_keeps_tableInv⟩
  obtain ⟨hpoly, htable, -⟩ := exec_keeps_poly_table_cfg hi h
  exact ⟨hpoly, htable⟩

/-- Settles O48: `CFG = 0` makes the table invariant void, and the empty ports and lists meet the rest, a buffer of
length 0 being within every `BUFLEN_MAX`. -/
theorem invariantsHoldAtReset : Obligations.InvariantsHoldAtReset := by
  refine ⟨tableInv_of_unconfigured rfl, rfl, rfl, fun bufLenMax => ?_⟩
  simp [hostLegal, presentedLegal, State.reset, Memory.wf, canonicalFrom]

end Sys2Proof.Machine
end

section
/-! PROOFS. 10_state.md R16, R22, R24: engines that no command can tell apart. -/

namespace Sys2Proof.Machine

open Sys2Proof.Safety

/-- From `s` and `s'` the two outcomes answer next states that agree, with the same responses added. -/
def AnswersAlike (s s' : State) (o o' : Host.Outcome State Fault Refusal) : Prop :=
  ∃ t t' added, o = .next t ∧ o' = .next t' ∧ Agree t t' ∧
    t.responses = s.responses ++ added ∧ t'.responses = s'.responses ++ added

/-! ## What keeps agreement -/

theorem agree_of_unconfigured {s s' : State} (hp : s.pending = s'.pending) (h : s.cfg = false) (h' : s'.cfg = false) :
    Agree s s' :=
  ⟨hp, h.trans h'.symm, fun hc => absurd (h.symm.trans hc) Bool.false_ne_true⟩

theorem agree_withPending {s s' : State} (h : Agree s s') (rest : List HostEvent) :
    Agree { s with pending := rest } { s' with pending := rest } := by
  obtain ⟨-, hcfg, hreg⟩ := h
  exact ⟨rfl, hcfg, hreg⟩

theorem agree_present {s s' : State} (h : Agree s s') (p : Presented) : Agree (s.present p) (s'.present p) := h

theorem agree_hardwareReset {s s' : State} (h : Agree s s') : Agree s.hardwareReset s'.hardwareReset := by
  obtain ⟨hp, -, -⟩ := h
  exact agree_of_unconfigured hp rfl rfl

theorem agree_writeCrc {s s' : State} (h : Agree s s') (v : Word) : Agree (s.writeCrc v) (s'.writeCrc v) := by
  obtain ⟨hp, hcfg, hreg⟩ := h
  refine ⟨hp, hcfg, fun hc => ?_⟩
  obtain ⟨hpoly, htable, -, hcfg⟩ := hreg hc
  exact ⟨hpoly, htable, rfl, hcfg⟩

/-- 40_construct.md R73: CONSTRUCT makes the registers agree whatever they were. -/
theorem agree_load {s s' : State} (h : Agree s s') (a : Word) (tab : Table) : Agree (s.load a tab) (s'.load a tab) := by
  obtain ⟨hp, -, -⟩ := h
  exact ⟨hp, rfl, fun _ => ⟨rfl, rfl, rfl, rfl⟩⟩

/-- Agreeing engines that are configured, with one buffer presented to both, differ in nothing but the record of
responses and the count of free values. -/
theorem eq_of_agree_of_configured {s s' : State} (h : Agree s s') (hc : s.cfg = true) (hlen : s.bufLen = s'.bufLen)
    (hmem : s.mem = s'.mem) : s' = { s with responses := s'.responses, draws := s'.draws } := by
  obtain ⟨hp, -, hreg⟩ := h
  obtain ⟨hpoly, htable, hcrc, hcfg⟩ := hreg hc
  cases s'
  simp [hp, hpoly, htable, hcrc, hcfg, hlen, hmem]

/-! ## Commands, events, steps and runs -/

/-- The same response added to two agreeing states, with nothing added before. -/
theorem answersAlike_respond {s s' u u' : State} (h : Agree u u') (hr : u.responses = s.responses)
    (hr' : u'.responses = s'.responses) (st : Status) (data : Word) :
    AnswersAlike s s' (.next (u.respond st data)) (.next (u'.respond st data)) :=
  ⟨_, _, [responseWord st data], rfl, rfl, h, by simp [hr], by simp [hr']⟩

/-- A command does not tell agreeing engines apart: CONSTRUCT replaces every register, the gate answers while `CFG = 0`,
and once configured the engines differ in nothing that a command reads. -/
theorem exec_answersAlike (i : Instr) {s s' : State} (h : Agree s s') (hlen : s.bufLen = s'.bufLen)
    (hmem : s.mem = s'.mem) : AnswersAlike s s' (exec i s) (exec i s') := by
  obtain ⟨a, rfl⟩ | hi := construct_or_not i
  · exact answersAlike_respond (agree_load h a (buildTable a)) rfl rfl .ok 0
  cases hc : s.cfg with
  | false =>
    have ⟨_, hcfg, _⟩ := h
    rw [exec_of_unconfigured hc hi, exec_of_unconfigured (hcfg.symm.trans hc) hi]
    exact answersAlike_respond h rfl rfl _ _
  | true =>
    obtain ⟨crc, st, data, -, hexec⟩ := exec_of_configured hc hi
    have hs : exec i s = .next ((s.writeCrc crc).respond st data) := hexec s.responses s.draws
    have hs' : exec i s' = .next ((s'.writeCrc crc).respond st data) := by
      rw [eq_of_agree_of_configured h hc hlen hmem]
      exact hexec s'.responses s'.draws
    rw [hs, hs']
    exact answersAlike_respond (agree_writeCrc h crc) rfl rfl st data

theorem serve_answersAlike (e : HostEvent) {s s' : State} (h : Agree s s') :
    AnswersAlike s s' (serve e s) (serve e s') := by
  cases e with
  | command p =>
    change AnswersAlike s s' (serveCommand p s) (serveCommand p s')
    cases hd : decode p.word with
    | ok i =>
      rw [serveCommand_of_ok hd, serveCommand_of_ok hd]
      exact exec_answersAlike i (agree_present h p) rfl rfl
    | error reason =>
      cases reason
      rw [serveCommand_of_illegal hd, serveCommand_of_illegal hd]
      exact answersAlike_respond (agree_present h p) rfl rfl _ _
  | hardwareReset => exact ⟨_, _, [], rfl, rfl, agree_hardwareReset h, by simp, by simp⟩
  | resetDuring p => exact ⟨_, _, [], rfl, rfl, agree_hardwareReset (agree_present h p), by simp, by simp⟩

theorem step_answersAlike {s s' : State} (h : Agree s s') : AnswersAlike s s' (step s) (step s') := by
  have ⟨hp, _, _⟩ := h
  cases hs : s.pending with
  | nil =>
    rw [step_of_idle hs, step_of_idle (hp.symm.trans hs)]
    exact ⟨s, s', [], rfl, rfl, h, by simp, by simp⟩
  | cons e rest =>
    rw [step_of_pending hs, step_of_pending (hp.symm.trans hs)]
    exact serve_answersAlike e (agree_withPending h rest)

/-- Settles O53: the step of agreeing engines, through the event that both serve. -/
theorem agreementOfTwoEnginesIsKept : Obligations.AgreementOfTwoEnginesIsKept :=
  fun _ _ => step_answersAlike

theorem run_answersAlike (k : Nat) {s s' : State} (h : Agree s s') :
    AnswersAlike s s' (Sys2Proof.core.run k s) (Sys2Proof.core.run k s') := by
  induction k generalizing s s' with
  | zero => exact ⟨s, s', [], rfl, rfl, h, by simp, by simp⟩
  | succ k ih =>
    obtain ⟨u, u', first, hu, hu', hagree, hr, hr'⟩ := step_answersAlike h
    obtain ⟨t, t', later, ht, ht', hagree, hl, hl'⟩ := ih hagree
    refine ⟨t, t', first ++ later, (run_succ k hu).trans ht, (run_succ k hu').trans ht', hagree, ?_, ?_⟩
    · rw [hl, hr, List.append_assoc]
    · rw [hl', hr', List.append_assoc]

/-- Settles O50: engines with `CFG = 0` and the same host agree, whatever their registers hold, and runs keep that. -/
theorem powerOnContentsAreNeverObserved : Obligations.PowerOnContentsAreNeverObserved := by
  intro k s s' hc hc' hp
  obtain ⟨t, t', added, ht, ht', ⟨-, hcfg, hreg⟩, hr, hr'⟩ := run_answersAlike k (agree_of_unconfigured hp hc hc')
  exact ⟨t, t', added, ht, ht', hr, hr', hcfg, hreg⟩

end Sys2Proof.Machine
end

section
/-! PROOFS. 10_state.md R10: which steps write which registers. -/

namespace Sys2Proof.Machine

open Sys2Proof.Safety

/-- The host's next event is a hardware reset, between commands or during one (70_reset_and_hazards.md R140). -/
def ResetNext (s : State) : Prop :=
  ∃ rest, s.pending = .hardwareReset :: rest ∨ ∃ p, s.pending = .resetDuring p :: rest

/-- The host's next event is the command `i`. -/
def CommandNext (i : Instr) (s : State) : Prop :=
  ∃ p rest, s.pending = .command p :: rest ∧ decode p.word = .ok i

/-- Everything a step can do to the registers: a hardware reset clears `CFG`, a CONSTRUCT sets it, and any other step
keeps `POLY`, `TABLE` and `CFG`, and `CRC` too unless its command is a writer of `CRC`. -/
theorem step_registers {s t : State} (h : step s = .next t) :
    (ResetNext s ∧ t.cfg = false) ∨
    (∃ a, CommandNext (.construct a) s ∧ t.cfg = true) ∨
    ((t.poly = s.poly ∧ t.table = s.table ∧ t.cfg = s.cfg) ∧
      (t.crc = s.crc ∨ ∃ i, CommandNext i s ∧ writesCrc i = true)) := by
  obtain ⟨-, he⟩ | ⟨p, rest, i, hp, hd, he⟩ | ⟨p, rest, -, -, he⟩ | ⟨rest, hp, he⟩ | ⟨p, rest, hp, he⟩ := step_cases s
  · cases he.symm.trans h
    exact .inr (.inr ⟨⟨rfl, rfl, rfl⟩, .inl rfl⟩)
  · have hexec := he.symm.trans h
    obtain ⟨a, rfl⟩ | hi := construct_or_not i
    · cases hexec
      exact .inr (.inl ⟨a, ⟨p, rest, hp, hd⟩, rfl⟩)
    · refine .inr (.inr ⟨(exec_keeps_poly_table_cfg hi hexec :), ?_⟩)
      cases hw : writesCrc i with
      | false => exact .inl (exec_keeps_crc hw hexec :)
      | true => exact .inr ⟨i, ⟨p, rest, hp, hd⟩, hw⟩
  · cases he.symm.trans h
    exact .inr (.inr ⟨⟨rfl, rfl, rfl⟩, .inl rfl⟩)
  · cases he.symm.trans h
    exact .inl ⟨⟨rest, .inl hp⟩, rfl⟩
  · cases he.symm.trans h
    exact .inl ⟨⟨rest, .inr ⟨p, hp⟩⟩, rfl⟩

theorem step_changes_poly_or_table {s t : State} (h : step s = .next t) (hne : t.poly ≠ s.poly ∨ t.table ≠ s.table) :
    ResetNext s ∨ ∃ a, CommandNext (.construct a) s := by
  obtain ⟨hr, -⟩ | ⟨a, ha, -⟩ | ⟨⟨hpoly, htable, -⟩, -⟩ := step_registers h
  · exact .inl hr
  · exact .inr ⟨a, ha⟩
  · exact absurd hne (not_or.mpr ⟨not_not.mpr hpoly, not_not.mpr htable⟩)

theorem step_clears_cfg {s t : State} (h : step s = .next t) (hs : s.cfg = true) (ht : t.cfg = false) :
    ResetNext s := by
  obtain ⟨hr, -⟩ | ⟨a, -, hcfg⟩ | ⟨⟨-, -, hcfg⟩, -⟩ := step_registers h
  · exact hr
  · simp [hcfg] at ht
  · simp [hcfg, hs] at ht

theorem step_sets_cfg {s t : State} (h : step s = .next t) (hs : s.cfg = false) (ht : t.cfg = true) :
    ∃ a, CommandNext (.construct a) s := by
  obtain ⟨-, hcfg⟩ | ⟨a, ha, -⟩ | ⟨⟨-, -, hcfg⟩, -⟩ := step_registers h
  · simp [hcfg] at ht
  · exact ⟨a, ha⟩
  · simp [hcfg, hs] at ht

theorem step_changes_crc {s t : State} (h : step s = .next t) (hne : t.crc ≠ s.crc) :
    ResetNext s ∨ ∃ i, CommandNext i s ∧ writesCrc i = true := by
  obtain ⟨hr, -⟩ | ⟨a, ha, -⟩ | ⟨-, hcrc | hi⟩ := step_registers h
  · exact .inl hr
  · exact .inr ⟨_, ha, rfl⟩
  · exact absurd hcrc hne
  · exact .inr hi

/-- A step of a readout leaves `CRC` as it was (42_readout_reset.md R110, R112). -/
theorem step_readout_keeps_crc {s t : State} {p : Presented} {rest : List HostEvent} (h : step s = .next t)
    (hp : s.pending = .command p :: rest) (hd : decode p.word = .ok .value ∨ decode p.word = .ok .polynomial) :
    t.crc = s.crc := by
  obtain hd | hd := hd <;> exact (exec_keeps_crc rfl ((step_of_command hp hd).symm.trans h) :)

/-- Settles O45: one lemma for each register that a step changes, and one for the readouts. -/
theorem registersChangeOnlyByTheirWriters : Obligations.RegistersChangeOnlyByTheirWriters := by
  refine fun s t h => ⟨fun hne => ?_, fun hs ht => ?_, fun hs ht => ?_, fun hne => ?_,
    fun p rest hp hd => step_readout_keeps_crc h hp hd⟩
  · obtain ⟨rest, hr | ⟨p, hr⟩⟩ | ⟨a, p, rest, hp, hd⟩ := step_changes_poly_or_table h hne
    · exact ⟨rest, .inl hr⟩
    · exact ⟨rest, .inr ⟨p, .inl hr⟩⟩
    · exact ⟨rest, .inr ⟨p, .inr ⟨a, hp, hd⟩⟩⟩
  · exact step_clears_cfg h hs ht
  · obtain ⟨a, p, rest, hp, hd⟩ := step_sets_cfg h hs ht
    exact ⟨p, rest, a, hp, hd⟩
  · obtain ⟨rest, hr | ⟨p, hr⟩⟩ | ⟨i, ⟨p, rest, hp, hd⟩, hw⟩ := step_changes_crc h hne
    · exact ⟨rest, .inl hr⟩
    · exact ⟨rest, .inr ⟨p, .inl hr⟩⟩
    · exact ⟨rest, .inr ⟨p, .inr ⟨i, hp, hd, hw⟩⟩⟩

end Sys2Proof.Machine
end

section
/-! PROOFS. 10_state.md R20, R21, R22: the registers after CONSTRUCT, after RESET and after a hardware reset. -/

namespace Sys2Proof.Machine

/-- Settles O13: `CFG` is 0 at reset, so the gate answers every command but CONSTRUCT. -/
theorem resetStateIsUnconfigured : Obligations.ResetStateIsUnconfigured :=
  ⟨rfl, rfl, fun _ hi => exec_of_unconfigured rfl hi⟩

/-- Settles O15: the state that CONSTRUCT loads, with the generator's entries in the built table. -/
theorem constructGivesEveryRegisterItsValue : Obligations.ConstructGivesEveryRegisterItsValue :=
  fun a s => ⟨_, exec_construct a s, rfl, tableRead_buildTable a, rfl, rfl, rfl, rfl, rfl, rfl, rfl⟩

/-- Settles O34: RESET on either side of the gate, and its word decodes whatever the operand fields hold. -/
theorem resetCommandClearsTheChecksumOnly : Obligations.ResetCommandClearsTheChecksumOnly :=
  ⟨fun _ h => exec_reset_of_configured h, fun _ h => exec_of_unconfigured h nofun,
    fun a b => by rw [decode_commandWord]; rfl⟩

end Sys2Proof.Machine
end

section
/-! PROOFS. 20_memory.md R42, R44: every command is a total step, and sees all that the command before it has done. -/

namespace Sys2Proof.Machine

open Sys2Proof.Safety

/-- Settles O9: the served event is the decoded command. -/
theorem stepRunsTheDecodedCommand : Obligations.StepRunsTheDecodedCommand :=
  fun _ _ _ _ hp hd => step_of_command hp hd

theorem agree_refl (s : State) : Agree s s := ⟨rfl, rfl, fun _ => ⟨rfl, rfl, rfl, rfl⟩⟩

/-- Settles O11: runs of agreeing engines answer next states, and every engine agrees with itself. -/
theorem everyRunOfStepsAnswersANextState : Obligations.EveryRunOfStepsAnswersANextState := by
  intro k s
  obtain ⟨t, -, -, ht, -⟩ := run_answersAlike k (agree_refl s)
  exact ⟨t, ht⟩

/-- The per-byte update on a built table looks up an entry of the generator (00_scope.md R9, 40_construct.md R71). -/
theorem updb_buildTable (p crc : Word) (b : Byte) :
    updb (buildTable p) crc b = ~~~ (tgen p (tableIndex (~~~ crc) b) ^^^ (~~~ crc >>> 8)) := by
  rw [updb, foldByte, tableRead_buildTable]

/-- Settles O51: CONSTRUCT leaves the built table and `CRC = 0`, so the update starts from `0xFFFFFFFF`, which shifts to
`0x00FFFFFF`. -/
theorem updateAfterConstructSeesTheNewTable : Obligations.UpdateAfterConstructSeesTheNewTable := by
  intro a bt s
  refine ⟨_, _, exec_construct a s, exec_updateByte_of_configured rfl bt, ?_⟩
  have start : (~~~ 0 : Word) = 0xFFFFFFFF := by decide
  have shifted : (0xFFFFFFFF : Word) >>> 8 = 0x00FFFFFF := by decide
  change updb (buildTable a) 0 bt = _
  rw [updb_buildTable, start, shifted, tableIndex]

end Sys2Proof.Machine
end

section
/-! PROOFS. 20_memory.md R34, R35: which bytes of the buffer a command reads, and that none writes it. -/

namespace Sys2Proof.Machine

/-- R35: UPDATE_BYTE answers the same whatever buffer is presented, on either side of the gate. -/
theorem exec_updateByte_withBuffer (bt : Byte) (s : State) :
    ∃ t, exec (.updateByte bt) s = .next t ∧ ∀ bufLen mem,
      exec (.updateByte bt) { s with bufLen := bufLen, mem := mem } = .next { t with bufLen := bufLen, mem := mem } := by
  obtain hc | hc := Bool.eq_false_or_eq_true s.cfg
  · exact ⟨_, exec_updateByte_of_configured hc bt, fun bufLen mem =>
      exec_updateByte_of_configured (s := { s with bufLen := bufLen, mem := mem }) hc bt⟩
  · exact ⟨_, exec_of_unconfigured hc nofun, fun bufLen mem =>
      exec_of_unconfigured (s := { s with bufLen := bufLen, mem := mem }) hc nofun⟩

/-- Settles O43: the frame of every command keeps the buffer's list, so every byte of it. -/
theorem engineNeverWritesTheBuffer : Obligations.EngineNeverWritesTheBuffer := by
  refine ⟨fun i s t h a => ?_, exec_updateByte_withBuffer⟩
  obtain ⟨hmem, -⟩ := exec_ports h
  rw [hmem]

/-- R34: UPDATE_RANGE reads no byte when the gate or the bounds check answers, and else the bytes of the range, which lies
below `BUFLEN`. -/
theorem exec_updateRange_withMem {s : State} {off len : Word} {mem : Memory}
    (h : ∀ a, off.toNat ≤ a → a < off.toNat + len.toNat → a < s.bufLen.toNat → mem.read a = s.mem.read a) :
    ∃ t, exec (.updateRange off len) s = .next t ∧
      exec (.updateRange off len) { s with mem := mem } = .next { t with mem := mem } := by
  obtain hc | hc := Bool.eq_false_or_eq_true s.cfg
  · have hc' : { s with mem := mem }.cfg = true := hc
    by_cases hb : off.toNat + len.toNat ≤ s.bufLen.toNat
    · have same_bytes : { s with mem := mem }.rangeBytes off len = s.rangeBytes off len :=
        bytes_congr fun a hlo hhi => h a hlo hhi (hhi.trans_le hb)
      refine ⟨_, exec_updateRange_inside hc hb, ?_⟩
      rw [exec_updateRange_inside hc' hb, same_bytes]
      rfl
    · exact ⟨_, exec_updateRange_outside hc hb, exec_updateRange_outside hc' hb⟩
  · exact ⟨_, exec_of_unconfigured hc nofun, exec_of_unconfigured (s := { s with mem := mem }) hc nofun⟩

/-- 41_update.md R94: UPDATE_ALL is the UPDATE_RANGE that covers the buffer, faults included. -/
theorem exec_updateAll_eq_updateRange (s : State) : exec .updateAll s = exec (.updateRange 0 s.bufLen) s := by
  obtain hc | hc := Bool.eq_false_or_eq_true s.cfg
  · have covers := (rangeInside_iff 0 s.bufLen s.bufLen).mp (rangeInside_whole s.bufLen)
    rw [exec_updateAll_of_configured hc, exec_updateRange_inside hc covers, rangeBytes_whole]
  · rw [exec_of_unconfigured hc (i := .updateAll) nofun,
      exec_of_unconfigured hc (i := .updateRange 0 s.bufLen) nofun]

/-- Settles O44: UPDATE_RANGE by its cases, and UPDATE_ALL as the range that covers the buffer. -/
theorem onlyTheRangeIsRead : Obligations.OnlyTheRangeIsRead := by
  refine ⟨fun s off len mem h => exec_updateRange_withMem h, fun s mem h => ?_⟩
  rw [exec_updateAll_eq_updateRange, exec_updateAll_eq_updateRange]
  exact exec_updateRange_withMem fun a _ _ => h a

end Sys2Proof.Machine
end

section
/-! PROOFS. 20_memory.md R33, 70_reset_and_hazards.md R150: the buffers that the host presents. -/

namespace Sys2Proof.Machine

open Sys2Proof.Safety

/-- What an event of the host puts on the command and buffer ports, if anything (30_encoding.md R50). -/
def HostEvent.presented : HostEvent → Option Presented
  | .command p => some p
  | .hardwareReset => none
  | .resetDuring p => some p

/-- `P` holds of the length and contents of the buffer on the port, and of every buffer still to be presented. -/
def EveryBuffer (P : Word → Memory → Prop) (s : State) : Prop :=
  P s.bufLen s.mem ∧ ∀ e ∈ s.pending, ∀ p ∈ e.presented, P p.bufLen p.mem

/-- Everything a step can do to the host's side: it takes the oldest event, if there is one, and the buffer port holds what
it held or what that event presents. -/
theorem step_host {s t : State} (h : step s = .next t) :
    t.pending = s.pending.tail ∧
      ((t.bufLen = s.bufLen ∧ t.mem = s.mem) ∨
        ∃ e ∈ s.pending, ∃ p ∈ e.presented, t.bufLen = p.bufLen ∧ t.mem = p.mem) := by
  obtain ⟨hp, he⟩ | ⟨p, rest, i, hp, -, he⟩ | ⟨p, rest, hp, -, he⟩ | ⟨rest, hp, he⟩ | ⟨p, rest, hp, he⟩ := step_cases s
  · cases he.symm.trans h
    exact ⟨by rw [hp]; rfl, .inl ⟨rfl, rfl⟩⟩
  · obtain ⟨hmem, hlen, hpending, -⟩ := exec_ports (he.symm.trans h)
    rw [hp]
    exact ⟨hpending, .inr ⟨_, List.mem_cons_self, p, rfl, hlen, hmem⟩⟩
  · cases he.symm.trans h
    rw [hp]
    exact ⟨rfl, .inr ⟨_, List.mem_cons_self, p, rfl, rfl, rfl⟩⟩
  · cases he.symm.trans h
    rw [hp]
    exact ⟨rfl, .inl ⟨rfl, rfl⟩⟩
  · cases he.symm.trans h
    rw [hp]
    exact ⟨rfl, .inr ⟨_, List.mem_cons_self, p, rfl, rfl, rfl⟩⟩

/-- The engine makes no buffer of its own: what holds of every buffer of the host holds of every one after a step. -/
theorem step_keeps_everyBuffer {P : Word → Memory → Prop} {s t : State} (hs : EveryBuffer P s)
    (h : step s = .next t) : EveryBuffer P t := by
  obtain ⟨hport, hpending⟩ := hs
  obtain ⟨htail, hbuf⟩ := step_host h
  refine ⟨?_, fun e he => hpending e (List.mem_of_mem_tail (htail ▸ he))⟩
  obtain ⟨hlen, hmem⟩ | ⟨e, he, p, hp, hlen, hmem⟩ := hbuf
  · rw [hlen, hmem]
    exact hport
  · rw [hlen, hmem]
    exact hpending e he p hp

theorem eventMemoryWf_iff (e : HostEvent) : eventMemoryWf e = true ↔ ∀ p ∈ e.presented, p.mem.wf = true := by
  cases e <;> simp [eventMemoryWf, HostEvent.presented]

theorem memoryWf_iff (s : State) : memoryWf s = true ↔ EveryBuffer (fun _ mem => mem.wf = true) s := by
  simp only [memoryWf, EveryBuffer, Bool.and_eq_true, List.all_eq_true, eventMemoryWf_iff]

theorem eventLegal_iff (bufLenMax : Word) (e : HostEvent) :
    eventLegal bufLenMax e = true ↔ ∀ p ∈ e.presented, presentedLegal bufLenMax p.bufLen p.mem = true := by
  cases e <;> simp [eventLegal, HostEvent.presented]

theorem hostLegal_iff (bufLenMax : Word) (s : State) :
    hostLegal bufLenMax s = true ↔ EveryBuffer (fun bufLen mem => presentedLegal bufLenMax bufLen mem = true) s := by
  simp only [hostLegal, EveryBuffer, Bool.and_eq_true, List.all_eq_true, eventLegal_iff]

/-- Settles O47: the canonical form is a property of every buffer. -/
theorem bufferFormIsKept : Obligations.BufferFormIsKept :=
  fun s t hs h => (memoryWf_iff t).mpr (step_keeps_everyBuffer ((memoryWf_iff s).mp hs) h)

/-- Settles O49: the host's duties are a property of every buffer. -/
theorem hostLegalityIsKept : Obligations.HostLegalityIsKept :=
  fun bufLenMax s t hs h =>
    (hostLegal_iff bufLenMax t).mpr (step_keeps_everyBuffer ((hostLegal_iff bufLenMax s).mp hs) h)

end Sys2Proof.Machine
end

section
/-! PROOFS. 30_encoding.md R51 to R54, R58: the decoder and the encoder. -/

namespace Sys2Proof

open Sys2Proof.Machine Sys2Proof.Safety

/-! ## Decoding what the encoder wrote -/

/-- The encoder writes the opcode and the operands into the fields that the decoder reads them from. -/
theorem decode_encode (i : Instr) : decode (encode i) = .ok i := by
  cases i with
  | construct poly => exact decode_commandWord 0x1 poly 0
  | updateByte bt =>
    have hbyte : byteOperand (bt.setWidth 32) = bt := byteOperand_setWidth bt
    rw [encode, decode_commandWord, hbyte]
    rfl
  | updateRange off len => exact decode_commandWord 0x3 off len
  | updateAll => exact decode_commandWord 0x4 0 0
  | value => exact decode_commandWord 0x5 0 0
  | reset => exact decode_commandWord 0x6 0 0
  | polynomial => exact decode_commandWord 0x7 0 0

/-- Settles O1: every command is well formed, so by `decode_encode`. -/
theorem decodeOfEncodeIsTheCommand : Obligations.DecodeOfEncodeIsTheCommand :=
  fun i _ => decode_encode i

/-! ## Which words decode -/

/-- The opcodes are the seven of R52 and the reserved ones of R58. -/
theorem mem_reservedOpcodes {op : BitVec 4} (h1 : op.toNat ≠ 1) (h2 : op.toNat ≠ 2) (h3 : op.toNat ≠ 3)
    (h4 : op.toNat ≠ 4) (h5 : op.toNat ≠ 5) (h6 : op.toNat ≠ 6) (h7 : op.toNat ≠ 7) : op ∈ reservedOpcodes := by
  revert op
  decide

/-- The opcode of a word is reserved, and then the word is illegal, or it is that of the command the word decodes to. -/
theorem decode_cases (w : CmdWord) :
    (opField w ∈ reservedOpcodes ∧ decode w = .error .illegalCommand) ∨
      ∃ i, opField w = opcode i ∧ decode w = .ok i := by
  unfold decode
  split
  case h_1 h => exact .inr ⟨.construct _, BitVec.eq_of_toNat_eq h, rfl⟩
  case h_2 h => exact .inr ⟨.updateByte _, BitVec.eq_of_toNat_eq h, rfl⟩
  case h_3 h => exact .inr ⟨.updateRange _ _, BitVec.eq_of_toNat_eq h, rfl⟩
  case h_4 h => exact .inr ⟨.updateAll, BitVec.eq_of_toNat_eq h, rfl⟩
  case h_5 h => exact .inr ⟨.value, BitVec.eq_of_toNat_eq h, rfl⟩
  case h_6 h => exact .inr ⟨.reset, BitVec.eq_of_toNat_eq h, rfl⟩
  case h_7 h => exact .inr ⟨.polynomial, BitVec.eq_of_toNat_eq h, rfl⟩
  case h_8 h1 h2 h3 h4 h5 h6 h7 => exact .inl ⟨mem_reservedOpcodes h1 h2 h3 h4 h5 h6 h7, rfl⟩

theorem opcode_not_reserved (i : Instr) : opcode i ∉ reservedOpcodes := by
  cases i <;> simp [opcode, reservedOpcodes]

theorem opField_of_decode {w : CmdWord} {i : Instr} (h : decode w = .ok i) : opField w = opcode i := by
  obtain ⟨-, hd⟩ | ⟨j, hop, hd⟩ := decode_cases w
  · cases h.symm.trans hd
  · cases h.symm.trans hd
    exact hop

theorem decode_eq_illegal_iff (w : CmdWord) : decode w = .error .illegalCommand ↔ opField w ∈ reservedOpcodes := by
  obtain ⟨hop, hd⟩ | ⟨i, hop, hd⟩ := decode_cases w
  · exact iff_of_true hd hop
  · exact iff_of_false (by simp [hd]) (hop ▸ opcode_not_reserved i)

theorem exists_decode_iff (w : CmdWord) : (∃ i, decode w = .ok i) ↔ opField w ∉ reservedOpcodes := by
  obtain ⟨hop, hd⟩ | ⟨i, hop, hd⟩ := decode_cases w
  · exact iff_of_false (by simp [hd]) (not_not.mpr hop)
  · exact iff_of_true ⟨i, hd⟩ (hop ▸ opcode_not_reserved i)

/-- The operands of a decoded UPDATE_RANGE are the two fields of its word (R54). -/
theorem fields_of_decode_updateRange {w : CmdWord} {off len : Word} (h : decode w = .ok (.updateRange off len)) :
    aField w = off ∧ bField w = len := by
  have hop : opField w = 0x3 := opField_of_decode h
  have hw : decode w = .ok (.updateRange (aField w) (bField w)) := by
    rw [decode, hop]
    rfl
  cases hw.symm.trans h
  exact ⟨rfl, rfl⟩

theorem eq_construct_of_opcode {i : Instr} (h : opcode i = 0x1) : ∃ a, i = .construct a := by
  cases i with
  | construct a => exact ⟨a, rfl⟩
  | _ => simp [opcode] at h

theorem eq_updateRange_of_opcode {i : Instr} (h : opcode i = 0x3) : ∃ off len, i = .updateRange off len := by
  cases i with
  | updateRange off len => exact ⟨off, len, rfl⟩
  | _ => simp [opcode] at h

/-! ## The canonical words -/

theorem canonicalWord_encode (i : Instr) : canonicalWord (encode i) = true := by
  cases i with
  | construct poly => exact (Laws.EncodingIsCanonical.construct poly).2
  | updateByte bt => exact (Laws.EncodingIsCanonical.updateByte bt).2
  | updateRange off len => exact (Laws.EncodingIsCanonical.updateRange off len).2
  | updateAll => exact Laws.EncodingIsCanonical.updateAll.2
  | value => exact Laws.EncodingIsCanonical.value.2
  | reset => exact Laws.EncodingIsCanonical.reset.2
  | polynomial => exact Laws.EncodingIsCanonical.polynomial.2

/-- A first operand whose ignored bits are 0 is its byte, extended (R54). -/
theorem setWidth_byteOperand {a : Word} (h : a.extractLsb' 8 24 = 0) : (byteOperand a).setWidth 32 = a := by
  refine BitVec.eq_of_getLsbD_eq fun i hi => ?_
  have high (hi8 : 8 ≤ i) : a.getLsbD i = false := by
    have := congrArg (BitVec.getLsbD · (i - 8)) h
    simpa [show i - 8 < 24 by omega, show 8 + (i - 8) = i by omega] using this
  by_cases hi8 : i < 8
  · simp [byteOperand, hi, hi8]
  · simp [byteOperand, hi8, high (by omega)]

theorem canonicalFields_of_reserved {op : BitVec 4} (h : op ∈ reservedOpcodes) (a b : Word) :
    canonicalFields op a b = false := by
  simp only [reservedOpcodes, List.mem_cons, List.not_mem_nil, or_false] at h
  obtain rfl | rfl | rfl | rfl | rfl | rfl | rfl | rfl | rfl := h <;> rfl

/-- Canonical fields under the opcode of a command are those of an encoding. -/
theorem exists_encode_of_canonicalFields {i : Instr} {a b : Word} (h : canonicalFields (opcode i) a b = true) :
    ∃ j, encode j = commandWord (opcode i) a b := by
  have both_zero (h : (a == 0 && b == 0) = true) : a = 0 ∧ b = 0 := by simpa using h
  cases i with
  | construct _ =>
    obtain rfl : b = 0 := eq_of_beq h
    exact ⟨.construct a, rfl⟩
  | updateByte _ =>
    obtain ⟨ha, rfl⟩ : a.extractLsb' 8 24 = 0 ∧ b = 0 := by simpa [canonicalFields, opcode] using h
    exact ⟨.updateByte (byteOperand a), by rw [encode, setWidth_byteOperand ha]; rfl⟩
  | updateRange _ _ => exact ⟨.updateRange a b, rfl⟩
  | updateAll =>
    obtain ⟨rfl, rfl⟩ := both_zero h
    exact ⟨.updateAll, rfl⟩
  | value =>
    obtain ⟨rfl, rfl⟩ := both_zero h
    exact ⟨.value, rfl⟩
  | reset =>
    obtain ⟨rfl, rfl⟩ := both_zero h
    exact ⟨.reset, rfl⟩
  | polynomial =>
    obtain ⟨rfl, rfl⟩ := both_zero h
    exact ⟨.polynomial, rfl⟩

/-- The canonical words are the encodings of the commands (R53). -/
theorem canonicalWord_iff (w : CmdWord) : canonicalWord w = true ↔ ∃ i, encode i = w := by
  constructor
  · intro h
    obtain ⟨hop, -⟩ | ⟨i, hop, -⟩ := decode_cases w
    · exact absurd h (by simp [canonicalWord, canonicalFields_of_reserved hop])
    · rw [canonicalWord, hop] at h
      obtain ⟨j, hj⟩ := exists_encode_of_canonicalFields h
      exact ⟨j, by rw [hj, ← hop, commandWord_fields]⟩
  · rintro ⟨i, rfl⟩
    exact canonicalWord_encode i

/-- Settles O2: a canonical word is some command's encoding, and that command is what it decodes to. -/
theorem encodeOfDecodeOnlyForCanonicalWords : Obligations.EncodeOfDecodeOnlyForCanonicalWords := by
  refine ⟨fun w i hd => ?_, fun w hc => ?_⟩
  · rw [canonicalWord_iff]
    refine ⟨fun h => ⟨i, h⟩, ?_⟩
    rintro ⟨j, rfl⟩
    cases (decode_encode j).symm.trans hd
    rfl
  · obtain ⟨i, rfl⟩ := (canonicalWord_iff w).mp hc
    exact ⟨i, decode_encode i⟩

/-! ## Ignored fields and reserved opcodes -/

/-- Of the operands only the byte of UPDATE_BYTE is examined (R54). -/
theorem decode_updateByte_congr {a a' : Word} (h : byteOperand a = byteOperand a') (b b' : Word) :
    decode (commandWord 0x2 a b) = decode (commandWord 0x2 a' b') := by
  rw [decode_commandWord, decode_commandWord, h]
  rfl

/-- The four commands without operands ignore both fields. -/
theorem decode_operandless {op : BitVec 4} (h : op ∈ [0x4, 0x5, 0x6, 0x7]) (a a' b b' : Word) :
    decode (commandWord op a b) = decode (commandWord op a' b') := by
  simp only [List.mem_cons, List.not_mem_nil, or_false] at h
  rw [decode_commandWord, decode_commandWord]
  obtain rfl | rfl | rfl | rfl := h <;> rfl

/-- The engine sees a command word through the decoder only. -/
theorem step_congr_word {w w' : CmdWord} (h : decode w = decode w') (bufLen : Word) (mem : Memory)
    (rest : List HostEvent) (s : State) :
    step { s with pending := .command ⟨w, bufLen, mem⟩ :: rest } =
      step { s with pending := .command ⟨w', bufLen, mem⟩ :: rest } := by
  have same : serveCommand ⟨w, bufLen, mem⟩ = serveCommand ⟨w', bufLen, mem⟩ := by
    funext s
    simp only [serveCommand, h, State.present]
  rw [step_of_pending rfl, step_of_pending rfl, serve, serve, same]

/-- A step on a word with a reserved opcode takes the event, presents its buffer and answers IllegalCommand (R58). -/
theorem step_of_reserved {s : State} {p : Presented} {rest : List HostEvent} (hp : s.pending = .command p :: rest)
    (hop : opField p.word ∈ reservedOpcodes) :
    step s = .next (({ s with pending := rest }.present p).respond .illegalCommand 0) := by
  rw [step_of_pending hp]
  exact serveCommand_of_illegal ((decode_eq_illegal_iff p.word).mpr hop) _

theorem not_reserved_of_mem {op : BitVec 4} (h : op ∈ [0x1, 0x2, 0x3, 0x4, 0x5, 0x6, 0x7]) :
    op ∉ reservedOpcodes := by
  revert op
  decide

/-- Settles O3: the decoder and with it the step by the lemmas above, the encoder by the fields of its words. -/
theorem ignoredFieldsAreNotExamined : Obligations.IgnoredFieldsAreNotExamined := by
  refine ⟨fun a b b' => ?_, fun a a' b b' h => decode_updateByte_congr h b b',
    fun op a a' b b' h => decode_operandless h a a' b b', fun op a b h => ?_,
    fun w w' bufLen mem rest s h => step_congr_word h bufLen mem rest s, fun poly => bField_commandWord _ _ _,
    fun bt => ⟨bField_commandWord _ _ _, ?_⟩, fun i hi => ?_⟩
  · rw [decode_commandWord, decode_commandWord]
    rfl
  · rw [exists_decode_iff, opField_commandWord]
    exact not_reserved_of_mem h
  · rw [encode, aField_commandWord]
    exact BitVec.eq_of_getLsbD_eq fun i hi => by simp
  · simp only [List.mem_cons, List.not_mem_nil, or_false] at hi
    obtain rfl | rfl | rfl | rfl := hi <;> exact ⟨aField_commandWord _ _ _, bField_commandWord _ _ _⟩

/-- Settles O4: the opcodes by `decode_cases`, the step by `step_of_reserved`. -/
theorem reservedOpcodesAreIllegalCommands : Obligations.ReservedOpcodesAreIllegalCommands :=
  ⟨rfl, by decide, decode_eq_illegal_iff, fun w => (exists_decode_iff w).symm, by decide,
    fun _ _ _ hp hop => step_of_reserved hp hop⟩

/-- Settles O5: eight closed words, evaluated. -/
theorem writtenOutWordsDecode : Obligations.WrittenOutWordsDecode := by
  unfold Obligations.WrittenOutWordsDecode
  decide

end Sys2Proof
end

section
/-! PROOFS. 30_encoding.md R55 to R57: the response of every command. -/

namespace Sys2Proof.Machine

open Sys2Proof.Safety

/-- Settles O7: four closed words, evaluated. -/
theorem statusCodesAreZeroToThree : Obligations.StatusCodesAreZeroToThree := by
  unfold Obligations.StatusCodesAreZeroToThree
  decide

/-! ## The status and the data that the fields of the word give -/

/-- A word that decodes gets past the first test of 60_exceptions.md R126. -/
theorem expectedStatus_of_decode {p : Presented} {i : Instr} (hd : decode p.word = .ok i) (cfg : Bool) :
    expectedStatus p cfg =
      if opcode i ≠ 0x1 ∧ cfg = false then .notConfigured
      else if opcode i = 0x3 ∧ p.bufLen.toNat < (aField p.word).toNat + (bField p.word).toNat then .boundsViolation
      else .ok := by
  rw [expectedStatus, opField_of_decode hd, if_neg (opcode_not_reserved i)]

theorem expectedStatus_construct {p : Presented} {a : Word} (hd : decode p.word = .ok (.construct a)) (cfg : Bool) :
    expectedStatus p cfg = .ok := by
  rw [expectedStatus_of_decode hd]
  simp [opcode]

theorem expectedStatus_of_unconfigured {p : Presented} {i : Instr} (hd : decode p.word = .ok i)
    (hi : ∀ a, i ≠ .construct a) : expectedStatus p false = .notConfigured := by
  have not_construct : opcode i ≠ 0x1 := mt eq_construct_of_opcode (not_exists.mpr hi)
  rw [expectedStatus_of_decode hd, if_pos ⟨not_construct, rfl⟩]

theorem expectedStatus_of_configured {p : Presented} {i : Instr} (hd : decode p.word = .ok i)
    (hi : ∀ off len, i ≠ .updateRange off len) : expectedStatus p true = .ok := by
  have not_range : opcode i ≠ 0x3 := by
    intro h
    obtain ⟨off, len, hr⟩ := eq_updateRange_of_opcode h
    exact hi off len hr
  rw [expectedStatus_of_decode hd, if_neg (by simp), if_neg (mt And.left not_range)]

theorem expectedStatus_updateRange {p : Presented} {off len : Word} (hd : decode p.word = .ok (.updateRange off len)) :
    expectedStatus p true =
      if off.toNat + len.toNat ≤ p.bufLen.toNat then .ok else .boundsViolation := by
  obtain ⟨rfl, rfl⟩ := fields_of_decode_updateRange hd
  rw [expectedStatus_of_decode hd]
  by_cases h : (aField p.word).toNat + (bField p.word).toNat ≤ p.bufLen.toNat
  · simp [h, Nat.not_lt.mpr h]
  · simp [h, opcode, Nat.not_le.mp h]

/-- What a completed command reads out: `CRC` for VALUE, `POLY` for POLYNOMIAL, nothing for the others (R57). -/
def readoutData : Instr → State → Word
  | .construct _, _ => 0
  | .updateByte _, _ => 0
  | .updateRange _ _, _ => 0
  | .updateAll, _ => 0
  | .value, s => s.crc
  | .reset, _ => 0
  | .polynomial, s => s.poly

theorem expectedData_of_ok {p : Presented} {i : Instr} {s : State} (hd : decode p.word = .ok i)
    (hst : expectedStatus p s.cfg = .ok) : expectedData p s = readoutData i s := by
  rw [expectedData, if_neg (not_not.mpr hst), opField_of_decode hd]
  cases i <;> rfl

theorem expectedData_of_fault {p : Presented} {s : State} (hst : expectedStatus p s.cfg ≠ .ok) :
    expectedData p s = 0 :=
  if_pos hst

/-! ## The response that the step gives -/

/-- From `s` the outcome answers a next state with one response more: the status and data that the fields of the
presented word give. -/
def RespondsAsExpected (p : Presented) (s : State) (o : Host.Outcome State Fault Refusal) : Prop :=
  ∃ t, o = .next t ∧ t.responses = s.responses ++ [responseWord (expectedStatus p s.cfg) (expectedData p s)]

theorem respondsAsExpected_of_ok {p : Presented} {i : Instr} {s u : State} {data : Word}
    {o : Host.Outcome State Fault Refusal} (ho : o = .next (u.respond .ok data)) (hd : decode p.word = .ok i)
    (hst : expectedStatus p s.cfg = .ok) (hdata : readoutData i s = data) (hu : u.responses = s.responses) :
    RespondsAsExpected p s o :=
  ⟨_, ho, by rw [State.respond_responses, hu, hst, expectedData_of_ok hd hst, hdata]⟩

theorem respondsAsExpected_of_fault {p : Presented} {s u : State} {st : Status}
    {o : Host.Outcome State Fault Refusal} (ho : o = .next (u.respond st 0))
    (hst : expectedStatus p s.cfg = st) (hne : st ≠ .ok) (hu : u.responses = s.responses) :
    RespondsAsExpected p s o :=
  ⟨_, ho, by rw [State.respond_responses, hu, hst, expectedData_of_fault (hst.trans_ne hne)]⟩

/-- On a configured engine only UPDATE_RANGE has a fault left, and that by the same bounds check. -/
theorem exec_respondsAsExpected_of_configured {p : Presented} {i : Instr} {s : State} (hd : decode p.word = .ok i)
    (hc : s.cfg = true) : RespondsAsExpected p s (exec i (s.present p)) := by
  have hc' : (s.present p).cfg = true := hc
  have completes (hi : ∀ off len, i ≠ .updateRange off len) : expectedStatus p s.cfg = .ok :=
    hc ▸ expectedStatus_of_configured hd hi
  cases i with
  | construct a => exact respondsAsExpected_of_ok (exec_construct a _) hd (completes nofun) rfl rfl
  | updateByte bt =>
    exact respondsAsExpected_of_ok (exec_updateByte_of_configured hc' bt) hd (completes nofun) rfl rfl
  | updateRange off len =>
    have hst : expectedStatus p s.cfg = _ := hc ▸ expectedStatus_updateRange hd
    by_cases hb : off.toNat + len.toNat ≤ p.bufLen.toNat
    · exact respondsAsExpected_of_ok (exec_updateRange_inside hc' hb) hd (hst.trans (if_pos hb)) rfl rfl
    · exact respondsAsExpected_of_fault (exec_updateRange_outside hc' hb) (hst.trans (if_neg hb)) nofun rfl
  | updateAll => exact respondsAsExpected_of_ok (exec_updateAll_of_configured hc') hd (completes nofun) rfl rfl
  | value => exact respondsAsExpected_of_ok (exec_value_of_configured hc') hd (completes nofun) rfl rfl
  | reset => exact respondsAsExpected_of_ok (exec_reset_of_configured hc') hd (completes nofun) rfl rfl
  | polynomial => exact respondsAsExpected_of_ok (exec_polynomial_of_configured hc') hd (completes nofun) rfl rfl

/-- By the order of 60_exceptions.md R126: a reserved word, then the gate on `CFG`, then the bounds. -/
theorem serveCommand_respondsAsExpected (p : Presented) (s : State) : RespondsAsExpected p s (serveCommand p s) := by
  obtain ⟨hop, hd⟩ | ⟨i, -, hd⟩ := decode_cases p.word
  · exact respondsAsExpected_of_fault (serveCommand_of_illegal hd s) (if_pos hop) nofun rfl
  rw [serveCommand_of_ok hd]
  cases hc : s.cfg with
  | true => exact exec_respondsAsExpected_of_configured hd hc
  | false =>
    obtain ⟨a, rfl⟩ | hi := construct_or_not i
    · exact respondsAsExpected_of_ok (exec_construct a _) hd (expectedStatus_construct hd s.cfg) rfl rfl
    · have hc' : (s.present p).cfg = false := hc
      have hst : expectedStatus p s.cfg = .notConfigured := hc ▸ expectedStatus_of_unconfigured hd hi
      exact respondsAsExpected_of_fault (exec_of_unconfigured hc' hi) hst nofun rfl

theorem step_respondsAsExpected {s : State} {p : Presented} {rest : List HostEvent}
    (hp : s.pending = .command p :: rest) : RespondsAsExpected p s (step s) := by
  rw [step_of_pending hp]
  exact serveCommand_respondsAsExpected p { s with pending := rest }

/-- Settles O6: the response that the word's fields give, and the fields of a response word. -/
theorem everyCommandHasOneResponseWord : Obligations.EveryCommandHasOneResponseWord := by
  refine ⟨fun s p rest hp => ?_, fun st data => ⟨statusField_responseWord st data, dataField_responseWord st data⟩⟩
  obtain ⟨t, ht, hr⟩ := step_respondsAsExpected hp
  exact ⟨t, _, ht, hr⟩

/-- Settles O8: the data field of that response. -/
theorem responseDataOfEveryCommand : Obligations.ResponseDataOfEveryCommand := by
  intro s p rest hp
  obtain ⟨t, ht, hr⟩ := step_respondsAsExpected hp
  exact ⟨t, _, ht, hr, dataField_responseWord _ _⟩

end Sys2Proof.Machine
end

section
/-! PROOFS. 70_reset_and_hazards.md R146: runs over the host's events, and what a run of updates folds. -/

namespace Sys2Proof.Machine

open Sys2Proof.Safety

/-! ## Running events one after another -/

/-- A run serves its first event and then runs the others. -/
theorem runEvents_cons {e : HostEvent} {rest : List HostEvent} {s t : State}
    (h : serve e { s with pending := rest } = .next t) : runEvents (e :: rest) s = runEvents rest t := by
  have hstep : step { s with pending := e :: rest } = .next t := (step_of_pending rfl).trans h
  obtain ⟨hpending, -⟩ := step_host hstep
  have rest_pending : t = { t with pending := rest } := congrArg (fun es => { t with pending := es }) hpending
  rw [runEvents, List.length_cons, run_succ _ hstep, rest_pending, runEvents]

/-- A run of a decoded command first. -/
theorem runEvents_command {p : Presented} {i : Instr} {rest : List HostEvent} {s t : State}
    (hd : decode p.word = .ok i) (h : exec i ({ s with pending := rest }.present p) = .next t) :
    runEvents (.command p :: rest) s = runEvents rest t :=
  runEvents_cons ((serveCommand_of_ok hd _).trans h)

/-! ## Runs of updates and readouts on a configured engine -/

@[simp] theorem updSeq_nil (t : Table) (crc : Word) : updSeq t crc [] = crc := BitVec.not_not

/-- Between two sequences the complement back and the complement of the next start cancel (41_update.md R98). -/
theorem updSeq_append (t : Table) (crc : Word) (x y : List Byte) :
    updSeq t crc (x ++ y) = updSeq t (updSeq t crc x) y := by
  simp [updSeq]

/-- A command that folds `bytes` leaves the other three registers alone. -/
theorem serveCommand_folds {p : Presented} {bytes : List Byte} {s : State} (hc : s.cfg = true)
    (hf : foldedBytes p = some bytes) :
    ∃ t, serveCommand p s = .next t ∧ t.crc = updSeq s.table s.crc bytes ∧
      t.poly = s.poly ∧ t.table = s.table ∧ t.cfg = true := by
  have hc' : (s.present p).cfg = true := hc
  rw [foldedBytes] at hf
  obtain ⟨-, hd⟩ | ⟨i, -, hd⟩ := decode_cases p.word
  · rw [hd] at hf
    cases hf
  rw [hd] at hf
  rw [serveCommand_of_ok hd]
  cases i with
  | construct a => cases hf
  | updateByte bt =>
    cases hf
    exact ⟨_, exec_updateByte_of_configured hc' bt, rfl, rfl, rfl, hc⟩
  | updateRange off len =>
    obtain ⟨hb, heq⟩ := Option.ite_none_right_eq_some.mp hf
    cases heq
    exact ⟨_, exec_updateRange_inside hc' hb, rfl, rfl, rfl, hc⟩
  | updateAll =>
    cases hf
    exact ⟨_, exec_updateAll_of_configured hc', rfl, rfl, rfl, hc⟩
  | value =>
    cases hf
    exact ⟨_, exec_value_of_configured hc', (updSeq_nil s.table s.crc).symm, rfl, rfl, hc⟩
  | reset => cases hf
  | polynomial =>
    cases hf
    exact ⟨_, exec_polynomial_of_configured hc', (updSeq_nil s.table s.crc).symm, rfl, rfl, hc⟩

/-- Commands that fold the `parts` one by one fold all the bytes of the parts, before whatever comes `later`. -/
theorem runEvents_folds {ps : List Presented} {parts : List (List Byte)} (hf : ps.mapM foldedBytes = some parts)
    (later : List HostEvent) {s : State} (hc : s.cfg = true) :
    ∃ t, runEvents (ps.map .command ++ later) s = runEvents later t ∧
      t.crc = updSeq s.table s.crc parts.flatten ∧ t.poly = s.poly ∧ t.table = s.table ∧ t.cfg = true := by
  induction ps generalizing parts s with
  | nil =>
    cases hf
    exact ⟨s, rfl, (updSeq_nil s.table s.crc).symm, rfl, rfl, hc⟩
  | cons p ps ih =>
    simp only [List.mapM_cons, Option.bind_eq_bind, Option.bind_eq_some_iff] at hf
    obtain ⟨bytes, hbytes, parts, hparts, heq⟩ := hf
    cases heq
    obtain ⟨u, hu, hcrc, hpoly, htable, hcfg⟩ :=
      serveCommand_folds (s := { s with pending := ps.map .command ++ later }) hc hbytes
    obtain ⟨t, ht, hcrc', hpoly', htable', hcfg'⟩ := ih hparts hcfg
    refine ⟨t, (runEvents_cons (e := .command p) hu).trans ht, ?_, hpoly'.trans hpoly, htable'.trans htable, hcfg'⟩
    rw [hcrc', htable, hcrc, List.flatten_cons, updSeq_append]

end Sys2Proof.Machine
end

section
/-! PROOFS. 30_encoding.md R61: the pseudo-operations. -/

namespace Sys2Proof.Machine

open Sys2Proof.Safety

/-! ## The events that the lines stand for -/

/-- One UPDATE_BYTE for each of the bytes, as the host presents them. -/
def updateBytePresents (buffer bytes : List Byte) : List Presented :=
  bytes.map fun b => presentedWith buffer (.updateByte b)

theorem assemble_updateBytes (buffer bytes : List Byte) :
    assemble buffer [.updateBytes bytes] = (updateBytePresents buffer bytes).map .command := by
  simp [assemble, Line.commands, Line.bufferAfter, updateBytePresents]

theorem assemble_updateByte_lines (buffer bytes : List Byte) :
    assemble buffer (bytes.map fun b => .updateByte b.toNat) = (updateBytePresents buffer bytes).map .command := by
  induction bytes with
  | nil => rfl
  | cons b bytes ih =>
    have operand : BitVec.ofNat 8 b.toNat = b := by simp
    simp [assemble, Line.commands, Line.bufferAfter, updateBytePresents, operand, ih]

theorem assemble_checksum (buffer bytes : List Byte) (p : Word) :
    assemble buffer [.checksum p.toNat bytes] =
      .command (presentedWith buffer (.construct p)) ::
        ((updateBytePresents buffer bytes).map .command ++ [.command (presentedWith buffer .value)]) := by
  simp [assemble, Line.commands, Line.bufferAfter, updateBytePresents]

theorem assemble_checksum_expansion (buffer bytes : List Byte) (p : Word) :
    assemble buffer [.construct p.toNat, .updateBytes bytes, .value] = assemble buffer [.checksum p.toNat bytes] := by
  simp [assemble, Line.commands, Line.bufferAfter]

/-! ## What they leave -/

theorem decode_presentedWith (buffer : List Byte) (i : Instr) : decode (presentedWith buffer i).word = .ok i :=
  decode_encode i

theorem foldedBytes_updateByte (buffer : List Byte) (b : Byte) :
    foldedBytes (presentedWith buffer (.updateByte b)) = some [b] := by
  rw [foldedBytes, decode_presentedWith]

theorem mapM_foldedBytes_updateBytePresents (buffer bytes : List Byte) :
    (updateBytePresents buffer bytes).mapM foldedBytes = some (bytes.map fun b => [b]) := by
  have one_byte : foldedBytes ∘ (fun b => presentedWith buffer (.updateByte b)) = fun b => pure [b] :=
    funext (foldedBytes_updateByte buffer)
  rw [updateBytePresents, List.mapM_map, one_byte, List.mapM_pure]
  rfl

theorem runEvents_updateBytePresents (buffer bytes : List Byte) (later : List HostEvent) {s : State}
    (hc : s.cfg = true) :
    ∃ t, runEvents ((updateBytePresents buffer bytes).map .command ++ later) s = runEvents later t ∧
      t.crc = updSeq s.table s.crc bytes ∧ t.cfg = true := by
  have all_bytes : (bytes.map fun b => [b]).flatten = bytes := by
    rw [← List.flatMap_def, List.flatMap_singleton']
  obtain ⟨t, ht, hcrc, -, -, hcfg⟩ := runEvents_folds (mapM_foldedBytes_updateBytePresents buffer bytes) later hc
  exact ⟨t, ht, all_bytes ▸ hcrc, hcfg⟩

theorem runEvents_construct {p : Presented} {a : Word} (hd : decode p.word = .ok (.construct a))
    (rest : List HostEvent) (s : State) :
    ∃ t, runEvents (.command p :: rest) s = runEvents rest t ∧ t.table = buildTable a ∧ t.crc = 0 ∧ t.cfg = true :=
  ⟨_, runEvents_command hd (exec_construct a _), rfl, rfl, rfl⟩

theorem runEvents_last_value {p : Presented} (hd : decode p.word = .ok .value) {s : State} (hc : s.cfg = true) :
    ∃ t, runEvents [.command p] s = .next t ∧ t.responses = s.responses ++ [responseWord .ok s.crc] :=
  ⟨_, runEvents_command hd (exec_value_of_configured hc), rfl⟩

/-- CONSTRUCT starts the checksum from 0 with the table of its operand, the bytes are folded, VALUE reads it out. -/
theorem runEvents_checksum (s : State) (buffer bytes : List Byte) (p : Word) :
    ∃ t earlier, runEvents (assemble buffer [.checksum p.toNat bytes]) s = .next t ∧
      t.responses = earlier ++ [responseWord .ok (updSeq (buildTable p) 0 bytes)] := by
  rw [assemble_checksum]
  obtain ⟨u, hu, htable, hzero, hcfg⟩ := runEvents_construct (decode_presentedWith buffer (.construct p)) _ s
  obtain ⟨v, hv, hcrc, hcfg⟩ := runEvents_updateBytePresents buffer bytes _ hcfg
  obtain ⟨t, ht, hr⟩ := runEvents_last_value (decode_presentedWith buffer .value) hcfg
  refine ⟨t, v.responses, (hu.trans hv).trans ht, ?_⟩
  rw [hr, hcrc, htable, hzero]

/-- The UPDATE_BYTEs complete in every state, and fold the bytes on a configured engine. -/
theorem runEvents_updateBytes (s : State) (buffer bytes : List Byte) :
    ∃ t, runEvents ((updateBytePresents buffer bytes).map .command) s = .next t ∧
      (s.cfg = true → t.crc = updSeq s.table s.crc bytes) := by
  cases hc : s.cfg with
  | false =>
    obtain ⟨t, ht⟩ := everyRunOfStepsAnswersANextState _ _
    exact ⟨t, ht, nofun⟩
  | true =>
    obtain ⟨t, ht, hcrc, -⟩ := runEvents_updateBytePresents buffer bytes [] hc
    rw [List.append_nil] at ht
    exact ⟨_, ht, fun _ => hcrc⟩

/-- Settles O52: each pseudo-operation and its expansion are the same command, or the same events of the host. -/
theorem pseudoOperationsExpand : Obligations.PseudoOperationsExpand := by
  refine ⟨exec_updateAll_eq_updateRange, fun s buffer bytes => ?_, fun s buffer bytes p => ?_⟩
  · obtain ⟨t, ht, hcrc⟩ := runEvents_updateBytes s buffer bytes
    rw [assemble_updateBytes, assemble_updateByte_lines]
    exact ⟨t, ht, ht, hcrc⟩
  · obtain ⟨t, earlier, ht, hr⟩ := runEvents_checksum s buffer bytes p
    rw [assemble_checksum_expansion]
    exact ⟨t, earlier, ht, ht, hr⟩

end Sys2Proof.Machine
end

section
/-! PROOFS. 40_construct.md R73 to R78: the algebra of the bit step and of the table generator. -/

namespace Sys2Proof.Machine

/-- Settles O16: CONSTRUCT loads all four items of the engine, each with a value that its operand gives. -/
theorem constructDependsOnItsOperandOnly : Obligations.ConstructDependsOnItsOperandOnly :=
  fun a s s' => ⟨_, _, exec_construct a s, exec_construct a s', rfl, rfl, rfl, rfl⟩

/-! ## Steps that only shift -/

/-- As long as the bits that leave are clear the polynomial is not folded in, and the steps are one shift. -/
theorem bitSteps_of_low_bits_clear (p : Word) {k : Nat} {c : Word} (h : ∀ i < k, c.getLsbD i = false) :
    bitSteps p k c = c >>> k := by
  induction k generalizing c with
  | zero => simp
  | succ k ih =>
    have shifted_clear : ∀ i < k, (c >>> 1).getLsbD i = false := fun i hi => by
      rw [BitVec.getLsbD_ushiftRight]
      exact h (1 + i) (by omega)
    rw [bitSteps_succ, step1_of_low_bit_clear p (h 0 k.succ_pos), ih shifted_clear, ← BitVec.shiftRight_add,
      Nat.add_comm]

theorem bitSteps_of_zero (p : Word) (k : Nat) : bitSteps p k 0 = 0 :=
  (bitSteps_of_low_bits_clear p fun _ _ => BitVec.getLsbD_zero).trans BitVec.zero_ushiftRight

theorem tgen_of_zero (p : Word) : tgen p 0 = 0 := bitSteps_of_zero p 8

/-- Settles O17: the working value starts at 0, and the bit steps keep it there. -/
theorem tableEntryZeroIsZero : Obligations.TableEntryZeroIsZero := tgen_of_zero

/-! ## Linearity over XOR -/

/-- Bit `i` after a step: the bit above it, flipped where bit 0 was set and the polynomial has a 1. -/
theorem getLsbD_step1 (p c : Word) (i : Nat) :
    (step1 p c).getLsbD i = ((c.getLsbD 0 && p.getLsbD i) ^^ c.getLsbD (i + 1)) := by
  cases h : c.getLsbD 0 with
  | true => rw [step1_of_low_bit_set p h, BitVec.getLsbD_xor, BitVec.getLsbD_ushiftRight, Bool.true_and, Nat.add_comm]
  | false =>
    rw [step1_of_low_bit_clear p h, BitVec.getLsbD_ushiftRight, Bool.false_and, Bool.false_xor, Nat.add_comm]

/-- Both terms of a bit after the step are linear in `c`. -/
theorem step1_xor (p x y : Word) : step1 p (x ^^^ y) = step1 p x ^^^ step1 p y := by
  refine BitVec.eq_of_getLsbD_eq fun i _ => ?_
  simp only [getLsbD_step1, BitVec.getLsbD_xor, Bool.and_xor_distrib_right, Bool.xor_assoc, Bool.xor_left_comm]

theorem bitSteps_xor (p : Word) (k : Nat) (x y : Word) :
    bitSteps p k (x ^^^ y) = bitSteps p k x ^^^ bitSteps p k y := by
  induction k generalizing x y with
  | zero => rfl
  | succ k ih => rw [bitSteps_succ, step1_xor, ih, bitSteps_succ, bitSteps_succ]

theorem tgen_xor (p : Word) (m n : Byte) : tgen p (m ^^^ n) = tgen p m ^^^ tgen p n := by
  rw [tgen, BitVec.setWidth_xor, bitSteps_xor, tgen, tgen]

/-! ## Bytes and entries as the XOR over the set bits -/

/-- The XOR of `f i` over the set bits `i` of `n` below `k`. -/
def xorOverSetBits {w : Nat} (n : Byte) (f : Nat → BitVec w) (k : Nat) : BitVec w :=
  (List.range k).foldl (fun acc i => if n.getLsbD i then acc ^^^ f i else acc) 0

@[simp] theorem xorOverSetBits_zero {w : Nat} (n : Byte) (f : Nat → BitVec w) : xorOverSetBits n f 0 = 0 := rfl

theorem xorOverSetBits_succ {w : Nat} (n : Byte) (f : Nat → BitVec w) (k : Nat) :
    xorOverSetBits n f (k + 1) = if n.getLsbD k then xorOverSetBits n f k ^^^ f k else xorOverSetBits n f k := by
  simp only [xorOverSetBits, List.range_succ, List.foldl_append, List.foldl_cons, List.foldl_nil]

theorem xorOverSetBits_congr {w : Nat} (n : Byte) {f g : Nat → BitVec w} {k : Nat} (h : ∀ i < k, f i = g i) :
    xorOverSetBits n f k = xorOverSetBits n g k :=
  List.foldl_ext _ _ _ fun _ i hi => by rw [h i (List.mem_range.mp hi)]

/-- The powers of two at the set bits below `k` make up the low `k` bits. -/
theorem getLsbD_xorOverSetBits_twoPow (n : Byte) {k : Nat} (hk : k ≤ 8) (j : Nat) :
    (xorOverSetBits n (BitVec.twoPow 8) k).getLsbD j = (decide (j < k) && n.getLsbD j) := by
  induction k with
  | zero => simp
  | succ k ih =>
    have below := ih (by omega)
    have power : (BitVec.twoPow 8 k).getLsbD j = decide (k = j) := by
      rw [BitVec.getLsbD_twoPow, decide_eq_true (by omega : k < 8), Bool.true_and]
    rw [xorOverSetBits_succ]
    obtain rfl | hj := eq_or_ne k j
    · cases hn : n.getLsbD k with
      | true => simp [below, power]
      | false => simp [below]
    · have same_range : j < k + 1 ↔ j < k := by omega
      cases hn : n.getLsbD k with
      | true => simp [below, power, hj, same_range]
      | false => simp [below, same_range]

theorem xorOverSetBits_twoPow (n : Byte) : xorOverSetBits n (BitVec.twoPow 8) 8 = n :=
  BitVec.eq_of_getLsbD_eq fun j hj => by
    rw [getLsbD_xorOverSetBits_twoPow n (le_refl 8), decide_eq_true hj, Bool.true_and]

/-- The generator, being linear, goes through the XOR over the set bits. -/
theorem tgen_xorOverSetBits (p : Word) (n : Byte) (f : Nat → Byte) (k : Nat) :
    tgen p (xorOverSetBits n f k) = xorOverSetBits n (fun i => tgen p (f i)) k := by
  induction k with
  | zero => exact tgen_of_zero p
  | succ k ih =>
    rw [xorOverSetBits_succ, xorOverSetBits_succ, apply_ite (tgen p), tgen_xor, ih]

theorem tgen_eq_xorOverSetBits (p : Word) (n : Byte) :
    tgen p n = xorOverSetBits n (fun i => tgen p (BitVec.twoPow 8 i)) 8 := by
  rw [← tgen_xorOverSetBits, xorOverSetBits_twoPow]

/-- Settles O18: linearity of the bit step and of the generator, and with it each entry as the XOR over the set bits of
its index, which reads only the entries at powers of two. -/
theorem tableGeneratorIsLinear : Obligations.TableGeneratorIsLinear := by
  refine ⟨step1_xor, tgen_xor, tgen_eq_xorOverSetBits, fun p q h n => ?_⟩
  rw [tgen_eq_xorOverSetBits, tgen_eq_xorOverSetBits]
  exact xorOverSetBits_congr n h

/-! ## The entries at powers of two -/

theorem twoPow_ushiftRight_self {i : Nat} (h : i < 32) : BitVec.twoPow 32 i >>> i = 1 := by
  refine BitVec.eq_of_getLsbD_eq fun j hj => ?_
  simp [BitVec.getLsbD_twoPow, h]

theorem setWidth_twoPow_byte {i : Nat} (h : i < 8) : (BitVec.twoPow 8 i).setWidth 32 = BitVec.twoPow 32 i := by
  refine BitVec.eq_of_getLsbD_eq fun j hj => ?_
  rw [BitVec.getLsbD_setWidth, BitVec.getLsbD_twoPow, BitVec.getLsbD_twoPow]
  simp [h, hj, h.trans (by decide : 8 < 32)]

/-- The bits of `2^i` below its single 1 are clear, so `i` steps bring that 1 to bit 0. -/
theorem bitSteps_twoPow (p : Word) {i : Nat} (h : i < 32) : bitSteps p i (BitVec.twoPow 32 i) = 1 := by
  have low_clear : ∀ j < i, (BitVec.twoPow 32 i).getLsbD j = false := fun j hj => by
    rw [BitVec.getLsbD_twoPow, decide_eq_false (by omega : ¬i = j), Bool.and_false]
  rw [bitSteps_of_low_bits_clear p low_clear, twoPow_ushiftRight_self h]

/-- The single 1 leaves, and what stays is the polynomial. -/
theorem step1_one (p : Word) : step1 p 1 = p :=
  (step1_of_low_bit_set p rfl).trans BitVec.xor_zero

/-- Of the eight steps from `2^i`, `i` bring the 1 to bit 0, one gives the polynomial, and the rest start from there. -/
theorem tgen_twoPow (p : Word) {i : Nat} (h : i ≤ 7) : tgen p (BitVec.twoPow 8 i) = bitSteps p (7 - i) p := by
  have eight : 8 = i + (7 - i + 1) := by omega
  calc tgen p (BitVec.twoPow 8 i)
    _ = bitSteps p (i + (7 - i + 1)) (BitVec.twoPow 32 i) := by
      rw [← eight, tgen, setWidth_twoPow_byte (by omega)]
    _ = bitSteps p (7 - i) p := by
      rw [bitSteps_add, bitSteps_twoPow p (by omega), bitSteps_succ, step1_one]

theorem tgen_top (p : Word) : tgen p 0x80 = p := tgen_twoPow p (i := 7) (le_refl 7)

/-- Settles O19: the general entries by `tgen_twoPow`, and the eight of `0xC8DF352F` evaluated. -/
theorem powerOfTwoEntries : Obligations.PowerOfTwoEntries := by
  refine ⟨fun p i hi => bitSteps_twoPow p (by omega), step1_one, fun p i hi => tgen_twoPow p hi, tgen_top,
    fun p => tgen_twoPow p (i := 6) (by omega), fun s hs hc => (hs hc 0x80).trans (tgen_top s.poly), ?_⟩
  decide

/-! ## The degenerate polynomials -/

theorem step1_zero_poly (c : Word) : step1 0 c = c >>> 1 := by
  cases h : c.getLsbD 0 with
  | true => exact (step1_of_low_bit_set 0 h).trans BitVec.zero_xor
  | false => exact step1_of_low_bit_clear 0 h

theorem bitSteps_zero_poly (k : Nat) (c : Word) : bitSteps 0 k c = c >>> k := by
  induction k generalizing c with
  | zero => simp
  | succ k ih => rw [bitSteps_succ, step1_zero_poly, ih, ← BitVec.shiftRight_add, Nat.add_comm]

/-- Eight shifts push the whole byte out. -/
theorem tgen_zero_poly (n : Byte) : tgen 0 n = 0 := by
  rw [tgen, bitSteps_zero_poly]
  exact BitVec.eq_of_getLsbD_eq fun i hi => by simp

/-- A rotation moves bit `i + r`, counted round the word, to bit `i`. -/
theorem getLsbD_rotateRight_mod (c : Word) {r i : Nat} (hr : r < 32) (hi : i < 32) :
    (c.rotateRight r).getLsbD i = c.getLsbD ((i + r) % 32) := by
  rw [BitVec.getLsbD_rotateRight, Nat.mod_eq_of_lt hr]
  by_cases h : i < 32 - r
  · rw [decide_eq_true h, cond_true, Nat.mod_eq_of_lt (by omega), Nat.add_comm]
  · have wraps : (i + r) % 32 = i - (32 - r) := by omega
    rw [decide_eq_false h, cond_false, decide_eq_true hi, Bool.true_and, wraps]

/-- The bit that leaves at bit 0 is the one that enters at bit 31. -/
theorem step1_top_poly (c : Word) : step1 0x80000000 c = c.rotateRight 1 := by
  refine BitVec.eq_of_getLsbD_eq fun i hi => ?_
  have top : (0x80000000 : Word).getLsbD i = decide (31 = i) := BitVec.getLsbD_twoPow 31 i
  rw [getLsbD_step1, top, getLsbD_rotateRight_mod c (by omega) hi]
  obtain rfl | hlow := eq_or_ne 31 i
  · simp
  · rw [Nat.mod_eq_of_lt (by omega)]
    simp [hlow]

theorem getLsbD_bitSteps_top_poly (k : Nat) (c : Word) {i : Nat} (hi : i < 32) :
    (bitSteps 0x80000000 k c).getLsbD i = c.getLsbD ((i + k) % 32) := by
  induction k generalizing c with
  | zero => rw [bitSteps_zero, Nat.add_zero, Nat.mod_eq_of_lt hi]
  | succ k ih =>
    have one_further : ((i + k) % 32 + 1) % 32 = (i + (k + 1)) % 32 := by omega
    rw [bitSteps_succ, ih, step1_top_poly, getLsbD_rotateRight_mod c (by omega) (Nat.mod_lt _ (by omega)), one_further]

/-- Eight rotations take the byte from the low end of the word to its high end. -/
theorem tgen_top_poly (n : Byte) : tgen 0x80000000 n = n.setWidth 32 <<< 24 := by
  refine BitVec.eq_of_getLsbD_eq fun i hi => ?_
  rw [tgen, getLsbD_bitSteps_top_poly 8 _ hi]
  by_cases h : i < 24
  · rw [Nat.mod_eq_of_lt (by omega)]
    simp [h]
  · have wraps : (i + 8) % 32 = i - 24 := by omega
    rw [wraps]
    simp [h, hi, (i.sub_le 24).trans_lt hi]

/-- Settles O20: steps that shift push the byte out, steps that rotate move it to the top, and CONSTRUCT completes for
every polynomial. -/
theorem degeneratePolynomials : Obligations.DegeneratePolynomials :=
  ⟨step1_zero_poly, tgen_zero_poly, step1_top_poly, tgen_top_poly, tgen_top_poly 0xFF,
    fun p s _ => ⟨_, exec_construct p s, rfl, rfl⟩⟩

end Sys2Proof.Machine
end

section
/-! PROOFS. 41_update.md R99: the table-driven datapath is the bit-serial one, and the checksum of a whole buffer. -/

namespace Sys2Proof.Machine

open Sys2Proof.Safety

/-- A word is its low byte and the rest. -/
theorem low_byte_xor_rest (x : Word) : (x.extractLsb' 0 8).setWidth 32 ^^^ (x >>> 8) <<< 8 = x := by
  refine BitVec.eq_of_getLsbD_eq fun i hi => ?_
  by_cases h : i < 8
  · simp [h, hi]
  · simp [h, hi, show 8 + (i - 8) = i by omega]

theorem shiftRight_shiftLeft_shiftRight (x : Word) : (x >>> 8) <<< 8 >>> 8 = x >>> 8 := by
  refine BitVec.eq_of_getLsbD_eq fun i _ => ?_
  by_cases h : 8 + i < 32
  · simp [h]
  · simp [BitVec.getLsbD_of_ge x (8 + i) (by omega)]

/-- Eight bit steps push the low byte out: it leaves its table entry, XORed into what the rest has shifted to. -/
theorem bitSteps_eight (p x : Word) : bitSteps p 8 x = tgen p (x.extractLsb' 0 8) ^^^ (x >>> 8) := by
  have low_clear : ∀ i < 8, ((x >>> 8) <<< 8).getLsbD i = false := fun i hi => by simp [hi]
  calc bitSteps p 8 x
    _ = bitSteps p 8 ((x.extractLsb' 0 8).setWidth 32 ^^^ (x >>> 8) <<< 8) := by rw [low_byte_xor_rest]
    _ = tgen p (x.extractLsb' 0 8) ^^^ (x >>> 8) := by
      rw [bitSteps_xor, bitSteps_of_low_bits_clear p low_clear, shiftRight_shiftLeft_shiftRight, tgen]

/-- R99 for one byte: the byte does not reach above bit 7, so the table step is eight bit steps. -/
theorem foldByte_eq_bitSteps {t : Table} {p : Word} (h : ∀ n : Byte, tableRead t n = tgen p n) (c : Word) (b : Byte) :
    foldByte t c b = bitSteps p 8 (c ^^^ b.setWidth 32) := by
  have byte_gone : (b.setWidth 32 : Word) >>> 8 = 0 := BitVec.eq_of_getLsbD_eq fun i hi => by simp
  rw [foldByte, h, tableIndex, bitSteps_eight, BitVec.ushiftRight_xor_distrib, byte_gone]
  simp

/-- R99 for a sequence. -/
theorem updSeq_eq_bitSerial {t : Table} {p : Word} (h : ∀ n : Byte, tableRead t n = tgen p n) (crc : Word)
    (bytes : List Byte) : updSeq t crc bytes = ~~~ bitSerial p (~~~ crc) bytes := by
  have same_step : foldByte t = fun c b => bitSteps p 8 (c ^^^ b.setWidth 32) :=
    funext₂ (foldByte_eq_bitSteps h)
  rw [updSeq, same_step, bitSerial]

/-- UPDATE_ALL reads the buffer that the host presents: its length is below `2^32`, so `BUFLEN` is that length. -/
theorem allBytes_presentedWith {bytes : List Byte} (h : bytes.length < 2 ^ 32) (i : Instr) (s : State) :
    (s.present (presentedWith bytes i)).allBytes = bytes := by
  have bufLen : (BitVec.ofNat 32 bytes.length).toNat = bytes.length := Nat.mod_eq_of_lt h
  rw [State.allBytes, State.present_bufLen, State.present_mem, presentedWith, bufLen, bytes_ofBytes]

/-- CONSTRUCT before whatever comes later: besides what `runEvents_construct` says, its response. -/
theorem runEvents_construct_responds (buffer : List Byte) (p : Word) (rest : List HostEvent) (s : State) :
    ∃ t, runEvents (.command (presentedWith buffer (.construct p)) :: rest) s = runEvents rest t ∧
      t.table = buildTable p ∧ t.crc = 0 ∧ t.responses = s.responses ++ [responseWord .ok 0] ∧ t.cfg = true :=
  ⟨_, runEvents_command (decode_presentedWith buffer (.construct p)) (exec_construct p _), rfl, rfl, rfl, rfl⟩

/-- UPDATE_ALL of a presented buffer, before whatever comes later. -/
theorem runEvents_updateAll {bytes : List Byte} (h : bytes.length < 2 ^ 32) (rest : List HostEvent) {s : State}
    (hc : s.cfg = true) :
    ∃ t, runEvents (.command (presentedWith bytes .updateAll) :: rest) s = runEvents rest t ∧
      t.crc = updSeq s.table s.crc bytes ∧ t.responses = s.responses ++ [responseWord .ok 0] ∧ t.cfg = true :=
  ⟨_, runEvents_command (decode_presentedWith bytes .updateAll) (exec_updateAll_of_configured hc),
    by rw [State.respond_crc, State.writeCrc_crc, allBytes_presentedWith h]; rfl, rfl, hc⟩

/-- Settles O32: CONSTRUCT leaves the generator's table and `CRC = 0`, whose complement is the preset; UPDATE_ALL folds
the buffer on that table, which is the bit-serial algorithm; VALUE reads the result out. -/
theorem checksumOfAnyBufferIsTheReflectedCrc : Obligations.ChecksumOfAnyBufferIsTheReflectedCrc := by
  intro s p bytes h
  have reflected : updSeq (buildTable p) 0 bytes = ~~~ bitSerial p 0xFFFFFFFF bytes :=
    updSeq_eq_bitSerial (tableRead_buildTable p) 0 bytes
  obtain ⟨u, hu, htable, hzero, hfirst, hcfg⟩ := runEvents_construct_responds [] p _ s
  obtain ⟨v, hv, hcrc, hsecond, hcfg⟩ := runEvents_updateAll h _ hcfg
  rw [htable, hzero, reflected] at hcrc
  refine ⟨_, (hu.trans hv).trans
    (runEvents_command (decode_presentedWith [] .value) (exec_value_of_configured hcfg)), hcrc, ?_⟩
  simp [hsecond, hfirst, hcrc]

end Sys2Proof.Machine
end

section
/-! PROOFS. 41_update.md R91, R93, R94, R96, R97: what each update command answers. -/

namespace Sys2Proof.Machine

/-- R90's loop over a range of the buffer, index by index. -/
theorem updSeq_bytes (t : Table) (crc : Word) (m : Memory) (off len : Nat) :
    updSeq t crc (m.bytes off len) =
      ~~~ (List.range len).foldl (fun c i => foldByte t c (m.read (off + i))) (~~~ crc) := by
  rw [updSeq, Memory.bytes, List.foldl_map]

/-! ## UPDATE_BYTE -/

/-- Settles O21: the gate and the word by the laws of the command and of the decoder, the worked example evaluated on
the generator's entries. -/
theorem updateByteFoldsItsByte : Obligations.UpdateByteFoldsItsByte := by
  refine ⟨fun s bt hc => exec_updateByte_of_configured hc bt, fun s bt hc => exec_of_unconfigured hc nofun,
    fun a b => decode_commandWord 0x2 a b, fun bt => rfl, fun s hc htable hcrc => ?_⟩
  have folds_F2 : updb s.table s.crc 0xF2 = 0x180725D6 := by
    rw [htable, hcrc, updb_buildTable]
    decide
  have folds_00 : updb s.table s.crc 0x00 = 0x6016DC99 := by
    rw [htable, hcrc, updb_buildTable]
    decide
  refine ⟨?_, folds_F2 ▸ exec_updateByte_of_configured hc 0xF2, folds_00 ▸ exec_updateByte_of_configured hc 0x00⟩
  rw [htable, tableRead_buildTable]
  decide

/-! ## UPDATE_RANGE and UPDATE_ALL -/

/-- Settles O22: the three cases of the command, the fold written as the loop over the indices, the worked example
evaluated on its table and its buffer. -/
theorem updateRangeFoldsTheRange : Obligations.UpdateRangeFoldsTheRange := by
  refine ⟨fun s off len hc hb => ?_, fun s off len hc => exec_of_unconfigured hc nofun,
    fun s off len hc hb => exec_updateRange_outside hc hb.not_ge, fun off len => decode_commandWord 0x3 off len,
    fun s hc htable hlen hmem => ⟨fun hcrc => ?_, fun hcrc => ?_⟩⟩
  · rw [exec_updateRange_inside hc hb, State.rangeBytes, updSeq_bytes]
    rfl
  · have folds : updSeq s.table s.crc (s.rangeBytes 0 4) = 0xB76D90F4 := by
      rw [State.rangeBytes, hmem, htable, hcrc]
      decide +kernel
    have inside : (0 : Word).toNat + (4 : Word).toNat ≤ s.bufLen.toNat := by
      rw [hlen]
      decide
    exact folds ▸ exec_updateRange_inside hc inside
  · have folds : updSeq s.table s.crc (s.rangeBytes 4 5) = 0xA65A343D := by
      rw [State.rangeBytes, hmem, htable, hcrc]
      decide +kernel
    have inside : (4 : Word).toNat + (5 : Word).toNat ≤ s.bufLen.toNat := by
      rw [hlen]
      decide
    exact folds ▸ exec_updateRange_inside hc inside

/-- Settles O23: the gate and the loop as for a range, the equality with the covering range, the worked example
evaluated on its table and its buffer. -/
theorem updateAllFoldsTheBuffer : Obligations.UpdateAllFoldsTheBuffer := by
  refine ⟨fun s hc => ?_, fun s hc => exec_of_unconfigured hc nofun, exec_updateAll_eq_updateRange,
    fun a b => decode_commandWord 0x4 a b, fun s hc htable hcrc hlen hmem => ?_⟩
  · rw [exec_updateAll_of_configured hc, State.allBytes, updSeq_bytes]
    simp only [Nat.zero_add]
    rfl
  · have folds : updSeq s.table s.crc s.allBytes = 0x4F721A25 := by
      rw [State.allBytes, hmem, hlen, htable, hcrc]
      decide +kernel
    exact folds ▸ exec_updateAll_of_configured hc

/-! ## The bounds check and the empty range -/

/-- A command that answers the status `a` answers no other one. -/
theorem answers_iff {o : Host.Outcome State Fault Refusal} {s u : State} {a st : Status} (h : o = .next u)
    (hu : u.responses = s.responses ++ [responseWord a 0]) :
    (∃ t, o = .next t ∧ t.responses = s.responses ++ [responseWord st 0]) ↔ st = a := by
  constructor
  · rintro ⟨t, ht, hr⟩
    cases h.symm.trans ht
    obtain ⟨same_status, -⟩ :=
      responseWord_injective (List.singleton_inj.mp (List.append_cancel_left (hr.symm.trans hu)))
    exact same_status
  · rintro rfl
    exact ⟨u, h, hu⟩

/-- R96: a configured UPDATE_RANGE answers one status, and the bounds check in the natural numbers says which. -/
theorem exec_updateRange_answers_iff {s : State} (hc : s.cfg = true) (off len : Word) (st : Status) :
    (∃ t, exec (.updateRange off len) s = .next t ∧ t.responses = s.responses ++ [responseWord st 0]) ↔
      st = if off.toNat + len.toNat ≤ s.bufLen.toNat then .ok else .boundsViolation := by
  by_cases hb : off.toNat + len.toNat ≤ s.bufLen.toNat
  · rw [if_pos hb]
    exact answers_iff (exec_updateRange_inside hc hb) rfl
  · rw [if_neg hb]
    exact answers_iff (exec_updateRange_outside hc hb) rfl

/-- Settles O25: the status by `exec_updateRange_answers_iff`, whose two branches differ; the violation leaves the state
as it is, on whatever buffer. -/
theorem boundsViolationExactlyOutsideTheBuffer : Obligations.BoundsViolationExactlyOutsideTheBuffer := by
  refine ⟨fun s off len hc => ?_, fun s off len hc => ?_,
    fun s off len mem hc hb => exec_updateRange_outside (s := { s with mem := mem }) hc hb.not_ge,
    fun s off hc hb => exec_updateRange_outside hc (len := 0) hb.not_ge⟩
  · rw [exec_updateRange_answers_iff hc]
    simp
  · rw [exec_updateRange_answers_iff hc]
    simp

/-- R97: complementing the checksum twice gives it back. -/
theorem exec_updateRange_empty {s : State} (hc : s.cfg = true) {off : Word} (hb : off.toNat ≤ s.bufLen.toNat) :
    exec (.updateRange off 0) s = .next (s.respond .ok 0) := by
  have no_bytes : s.rangeBytes off 0 = [] := rfl
  rw [exec_updateRange_inside (len := 0) hc hb, no_bytes, updSeq_nil]
  rfl

/-- Settles O26: UPDATE_ALL on an empty buffer is the empty range at its start. -/
theorem emptyUpdateChangesNothing : Obligations.EmptyUpdateChangesNothing := by
  refine ⟨fun s off hc hb => exec_updateRange_empty hc hb, fun s hc hlen => ?_⟩
  have as_range : exec .updateAll s = exec (.updateRange 0 0) s := by rw [exec_updateAll_eq_updateRange, hlen]
  exact as_range.trans <| exec_updateRange_empty (off := 0) hc (Nat.zero_le _)

end Sys2Proof.Machine
end

section
/-! PROOFS. 41_update.md R92, R95, R98: the bytes are what counts, not the commands that carry them. -/

namespace Sys2Proof.Machine

open Sys2Proof.Safety

/-- R92: between two bytes the complements cancel. -/
theorem updSeq_eq_foldl_updb (t : Table) (crc : Word) (bytes : List Byte) :
    updSeq t crc bytes = bytes.foldl (updb t) crc := by
  induction bytes generalizing crc with
  | nil => exact updSeq_nil t crc
  | cons b bytes ih => rw [updSeq_cons, ih, List.foldl_cons]

/-- Settles O24, by induction on the bytes. -/
theorem sequenceUpdateIsAFoldOfByteUpdates : Obligations.SequenceUpdateIsAFoldOfByteUpdates :=
  ⟨updSeq_eq_foldl_updb, updSeq_nil⟩

/-- A run of commands that fold the `parts`, to its end. -/
theorem runEvents_folds_end {ps : List Presented} {parts : List (List Byte)} (hf : ps.mapM foldedBytes = some parts)
    {s : State} (hc : s.cfg = true) :
    ∃ t, runEvents (ps.map .command) s = .next t ∧
      t.crc = updSeq s.table s.crc parts.flatten ∧ t.poly = s.poly ∧ t.table = s.table ∧ t.cfg = true := by
  obtain ⟨t, ht, hregs⟩ := runEvents_folds hf [] hc
  rw [List.append_nil] at ht
  exact ⟨{ t with pending := [] }, ht, hregs⟩

/-- Settles O27: a run's checksum is that of its bytes in order, so two runs with the same bytes have the same. -/
theorem anyMixtureOfShapesFoldsTheSameBytes : Obligations.AnyMixtureOfShapesFoldsTheSameBytes := by
  refine ⟨fun s ps parts hc hf => runEvents_folds_end hf hc, fun s ps qs xs ys hc hxs hys same_bytes => ?_⟩
  obtain ⟨t, ht, htcrc, -⟩ := runEvents_folds_end hxs hc
  obtain ⟨u, hu, hucrc, -⟩ := runEvents_folds_end hys hc
  exact ⟨t, u, ht, hu, by rw [htcrc, hucrc, same_bytes]⟩

/-! ## A buffer fed in parts -/

/-- 42_readout_reset.md R114: a readout is a command that folds no byte. -/
theorem foldedBytes_of_isReadout {e : HostEvent} (h : isReadout e = true) :
    ∃ p, e = .command p ∧ foldedBytes p = some [] := by
  cases e with
  | command p =>
    refine ⟨p, rfl, ?_⟩
    simp only [isReadout, Bool.or_eq_true, beq_iff_eq] at h
    obtain hd | hd := h <;> rw [foldedBytes, hd]
  | hardwareReset => cases h
  | resetDuring p => cases h

/-- A tile inside the buffer folds its bytes: neither of its operands wraps, for both are at most `BUFLEN`. -/
theorem foldedBytes_tile {bufLen : Word} (mem : Memory) {off n : Nat} (h : off + n ≤ bufLen.toNat) :
    foldedBytes ⟨encode (.updateRange (BitVec.ofNat 32 off) (BitVec.ofNat 32 n)), bufLen, mem⟩ =
      some (mem.bytes off n) := by
  have hlen : bufLen.toNat < 2 ^ 32 := bufLen.isLt
  have hoff : (BitVec.ofNat 32 off).toNat = off := Nat.mod_eq_of_lt (by omega)
  have hn : (BitVec.ofNat 32 n).toNat = n := Nat.mod_eq_of_lt (by omega)
  rw [foldedBytes, decode_encode]
  simp only [hoff, hn, if_pos h]

theorem mapM_foldedBytes_cons {p : Presented} {ps : List Presented} {bytes : List Byte} {parts : List (List Byte)}
    (hp : foldedBytes p = some bytes) (hps : ps.mapM foldedBytes = some parts) :
    (p :: ps).mapM foldedBytes = some (bytes :: parts) := by
  simp [hp, hps]

/-- Events that are tiles from `off` on, with readouts between them, are commands that fold the tiles' bytes in order. -/
theorem foldedBytes_of_tiles {bufLen : Word} {mem : Memory} {events : List HostEvent} {off : Nat} {lens : List Nat}
    (htiles : events.filter (fun e => !isReadout e) = tiles bufLen mem off lens)
    (hinside : off + lens.sum ≤ bufLen.toNat) :
    ∃ (ps : List Presented) (parts : List (List Byte)), events = ps.map .command ∧ ps.mapM foldedBytes = some parts ∧
      parts.flatten = mem.bytes off lens.sum := by
  induction events generalizing off lens with
  | nil =>
    cases lens with
    | nil => exact ⟨[], [], rfl, rfl, rfl⟩
    | cons n lens => cases htiles
  | cons e events ih =>
    cases hr : isReadout e with
    | true =>
      rw [List.filter_cons_of_neg (by simp [hr])] at htiles
      obtain ⟨ps, parts, rfl, hparts, hbytes⟩ := ih htiles hinside
      obtain ⟨p, rfl, hp⟩ := foldedBytes_of_isReadout hr
      exact ⟨p :: ps, [] :: parts, rfl, mapM_foldedBytes_cons hp hparts, hbytes⟩
    | false =>
      rw [List.filter_cons_of_pos (by simp [hr])] at htiles
      cases lens with
      | nil => cases htiles
      | cons n lens =>
        rw [List.sum_cons] at hinside ⊢
        obtain ⟨rfl, hrest⟩ := List.cons.inj htiles
        obtain ⟨ps, parts, rfl, hparts, hbytes⟩ := ih hrest (by omega)
        refine ⟨_ :: ps, mem.bytes off n :: parts, rfl,
          mapM_foldedBytes_cons (foldedBytes_tile mem (by omega)) hparts, ?_⟩
        rw [List.flatten_cons, hbytes, bytes_add]

/-- Settles O28: the parts' bytes in order are the buffer's bytes, and those are what UPDATE_ALL folds. -/
theorem partitionedFeedEndsAsTheWhole : Obligations.PartitionedFeedEndsAsTheWhole := by
  refine ⟨fun t crc x y => (updSeq_append t crc x y).symm, fun s bufLen mem lens events hc hsum htiles => ?_⟩
  obtain ⟨ps, parts, rfl, hparts, hbytes⟩ := foldedBytes_of_tiles htiles (by omega)
  have whole : [⟨encode .updateAll, bufLen, mem⟩].mapM foldedBytes = some [mem.bytes 0 bufLen.toNat] :=
    mapM_foldedBytes_cons (by rw [foldedBytes, decode_encode]) rfl
  obtain ⟨t, ht, htcrc, htpoly, httable, htcfg⟩ := runEvents_folds_end hparts hc
  obtain ⟨u, hu, hucrc, hupoly, hutable, hucfg⟩ := runEvents_folds_end whole hc
  refine ⟨t, u, ht, hu, htpoly.trans hupoly.symm, httable.trans hutable.symm, ?_, htcfg.trans hucfg.symm⟩
  rw [htcrc, hucrc, hbytes, hsum, List.flatten_singleton]

end Sys2Proof.Machine
end

section
/-! PROOFS. 41_update.md R99 to R101: the datapath on a table of the generator. -/

namespace Sys2Proof.Machine

/-- Settles O29: one byte by `foldByte_eq_bitSteps`, a sequence by `updSeq_eq_bitSerial`. -/
theorem tableDrivenEqualsBitSerial : Obligations.TableDrivenEqualsBitSerial :=
  fun _ _ h => ⟨foldByte_eq_bitSteps h, updSeq_eq_bitSerial h⟩

/-! ## The update without complements -/

theorem bitSteps_eight_allOnes (p : Word) : bitSteps p 8 0xFFFFFFFF = tgen p 0xFF ^^^ 0x00FFFFFF :=
  bitSteps_eight p 0xFFFFFFFF

/-- R100: by linearity the complement before the step comes out of it as the word that all ones step to. -/
theorem updb_eq_complement_free {t : Table} {p : Word} (h : ∀ n : Byte, tableRead t n = tgen p n) (crc : Word)
    (b : Byte) : updb t crc b = foldByte t crc b ^^^ tableRead t 0xFF ^^^ 0xFF000000 := by
  have not_eq_xor (x : Word) : ~~~ x = x ^^^ 0xFFFFFFFF := BitVec.xor_allOnes.symm
  have start : (crc ^^^ 0xFFFFFFFF) ^^^ b.setWidth 32 = (crc ^^^ b.setWidth 32) ^^^ 0xFFFFFFFF := by ac_rfl
  have constant : (0x00FFFFFF : Word) ^^^ 0xFFFFFFFF = 0xFF000000 := rfl
  calc updb t crc b
    _ = bitSteps p 8 ((crc ^^^ b.setWidth 32) ^^^ 0xFFFFFFFF) ^^^ 0xFFFFFFFF := by
      rw [updb, not_eq_xor, not_eq_xor, foldByte_eq_bitSteps h, start]
    _ = foldByte t crc b ^^^ (tableRead t 0xFF ^^^ 0x00FFFFFF) ^^^ 0xFFFFFFFF := by
      rw [bitSteps_xor, bitSteps_eight_allOnes, ← foldByte_eq_bitSteps h, h]
    _ = foldByte t crc b ^^^ tableRead t 0xFF ^^^ 0xFF000000 := by
      rw [BitVec.xor_assoc, BitVec.xor_assoc, constant, BitVec.xor_assoc]

/-- Settles O30: the form by `updb_eq_complement_free`, its constant evaluated on the generator's entries. -/
theorem complementFreeUpdate : Obligations.ComplementFreeUpdate := by
  refine ⟨fun t p h crc bt => updb_eq_complement_free h crc bt, by decide, ?_⟩
  rw [updb_buildTable]
  decide

/-! ## Results for every polynomial -/

/-- R101 (b): entry 0 is 0 for every polynomial, so a step with index 0 only shifts. -/
theorem foldByte_of_index_zero {t : Table} {p : Word} (h : ∀ n : Byte, tableRead t n = tgen p n) {c : Word} {b : Byte}
    (hidx : tableIndex c b = 0) : foldByte t c b = c >>> 8 := by
  rw [foldByte, hidx, h, tgen_of_zero]
  exact BitVec.zero_xor

/-- The low byte of a XOR is the XOR of the low bytes. -/
theorem tableIndex_eq_xor (c : Word) (b : Byte) : tableIndex c b = c.extractLsb' 0 8 ^^^ b := by
  rw [tableIndex, BitVec.extractLsb'_xor]
  exact congrArg (c.extractLsb' 0 8 ^^^ ·) (byteOperand_setWidth b)

theorem foldByte_zero_poly {t : Table} (h : ∀ n : Byte, tableRead t n = tgen 0x00000000 n) (c : Word) (b : Byte) :
    foldByte t c b = c >>> 8 := by
  rw [foldByte, h, tgen_zero_poly]
  exact BitVec.zero_xor

/-- With the zero polynomial a sequence only shifts, by eight bits for each byte. -/
theorem foldl_foldByte_zero_poly {t : Table} (h : ∀ n : Byte, tableRead t n = tgen 0x00000000 n) (c : Word)
    (bytes : List Byte) : bytes.foldl (foldByte t) c = c >>> (8 * bytes.length) := by
  induction bytes generalizing c with
  | nil => simp
  | cons b bytes ih =>
    rw [List.foldl_cons, ih, foldByte_zero_poly h, ← BitVec.shiftRight_add, List.length_cons, Nat.mul_succ,
      Nat.add_comm]

/-- The zeros that a shift of the complement brings in are ones of the result. -/
theorem not_shiftRight_not (x : Word) : ~~~ (~~~ x >>> 8) = (x >>> 8) ||| 0xFF000000 := by
  refine BitVec.eq_of_getLsbD_eq fun i hi => ?_
  have ones_on_top : (0xFF000000 : Word).getLsbD i = decide (24 ≤ i) := by
    change (BitVec.allOnes 32 <<< 24).getLsbD i = _
    rw [BitVec.getLsbD_shiftLeft, BitVec.getLsbD_allOnes]
    by_cases h : 24 ≤ i
    · simp [h, hi, (i.sub_le 24).trans_lt hi]
    · simp [h]
  rw [BitVec.getLsbD_or, ones_on_top]
  by_cases h : 24 ≤ i
  · simp [h, hi, show 32 ≤ 8 + i by omega]
  · simp [h, hi, show ¬32 ≤ 8 + i by omega]

/-- R101 (c): after four bytes every bit of the working value has left. -/
theorem updSeq_zero_poly_saturates {t : Table} (h : ∀ n : Byte, tableRead t n = tgen 0x00000000 n) (crc : Word)
    {bytes : List Byte} (hlen : 4 ≤ bytes.length) : updSeq t crc bytes = 0xFFFFFFFF := by
  rw [updSeq, foldl_foldByte_zero_poly h, BitVec.ushiftRight_eq_zero (by omega)]
  rfl

/-- Settles O31: the listed working values are shifts, for each of their indices is 0; the zero polynomial always
shifts. -/
theorem resultsForEveryPolynomial : Obligations.ResultsForEveryPolynomial := by
  refine ⟨fun t p h => ?_, fun t h => ⟨fun crc bt => ?_, fun crc bytes => updSeq_zero_poly_saturates h crc⟩⟩
  · have first : foldByte t 0xFFFFFFFF 0xFF = 0x00FFFFFF := foldByte_of_index_zero h (by decide)
    have second : foldByte t 0x00FFFFFF 0xFF = 0x0000FFFF := foldByte_of_index_zero h (by decide)
    have third : foldByte t 0x0000FFFF 0xFF = 0x000000FF := foldByte_of_index_zero h (by decide)
    have fourth : foldByte t 0x000000FF 0xFF = 0x00000000 := foldByte_of_index_zero h (by decide)
    refine ⟨?_, first, second, third, fourth, fun c bt hidx =>
      foldByte_of_index_zero h ((tableIndex_eq_xor c bt).trans hidx)⟩
    have preset : ~~~ (0x00000000 : Word) = 0xFFFFFFFF := rfl
    rw [updSeq, preset, List.foldl_cons, first, List.foldl_cons, second, List.foldl_cons, third,
      List.foldl_cons, fourth, List.foldl_nil]
    rfl
  · rw [updb, foldByte_zero_poly h, not_shiftRight_not]

end Sys2Proof.Machine
end

section
/-! PROOFS. 70_reset_and_hazards.md R146: a run in parts, and what every event of a run keeps. -/

namespace Sys2Proof.Machine

open Sys2Proof.Safety

/-! ## What the host does later makes no difference now (10_state.md, the access matrix after R19) -/

/-- A command leaves the host's later events where they are, and does the same whatever they are. -/
theorem exec_withPending (i : Instr) (s : State) :
    ∃ t, exec i s = .next t ∧ ∀ later, exec i { s with pending := later } = .next { t with pending := later } := by
  obtain ⟨a, rfl⟩ | hi := construct_or_not i
  · exact ⟨_, exec_construct a s, fun _ => exec_construct a _⟩
  obtain hc | hc := Bool.eq_false_or_eq_true s.cfg
  · have hc' (later) : { s with pending := later }.cfg = true := hc
    cases i with
    | construct a => exact absurd rfl (hi a)
    | updateByte bt =>
      exact ⟨_, exec_updateByte_of_configured hc bt, fun later => exec_updateByte_of_configured (hc' later) bt⟩
    | updateRange off len =>
      by_cases hb : off.toNat + len.toNat ≤ s.bufLen.toNat
      · exact ⟨_, exec_updateRange_inside hc hb, fun later => exec_updateRange_inside (hc' later) hb⟩
      · exact ⟨_, exec_updateRange_outside hc hb, fun later => exec_updateRange_outside (hc' later) hb⟩
    | updateAll => exact ⟨_, exec_updateAll_of_configured hc, fun later => exec_updateAll_of_configured (hc' later)⟩
    | value => exact ⟨_, exec_value_of_configured hc, fun later => exec_value_of_configured (hc' later)⟩
    | reset => exact ⟨_, exec_reset_of_configured hc, fun later => exec_reset_of_configured (hc' later)⟩
    | polynomial => exact ⟨_, exec_polynomial_of_configured hc, fun later => exec_polynomial_of_configured (hc' later)⟩
  · exact ⟨_, exec_of_unconfigured hc hi, fun later => exec_of_unconfigured (s := { s with pending := later }) hc hi⟩

theorem serve_withPending (e : HostEvent) (s : State) :
    ∃ t, serve e s = .next t ∧ ∀ later, serve e { s with pending := later } = .next { t with pending := later } := by
  cases e with
  | command p =>
    cases hd : decode p.word with
    | ok i =>
      obtain ⟨t, ht, hlater⟩ := exec_withPending i (s.present p)
      exact ⟨t, (serveCommand_of_ok hd s).trans ht, fun later => (serveCommand_of_ok hd _).trans (hlater later)⟩
    | error reason =>
      cases reason
      exact ⟨_, serveCommand_of_illegal hd s, fun _ => serveCommand_of_illegal hd _⟩
  | hardwareReset => exact ⟨_, rfl, fun _ => rfl⟩
  | resetDuring p => exact ⟨_, rfl, fun _ => rfl⟩

/-! ## Runs -/

theorem runEvents_answers (es : List HostEvent) (s : State) : ∃ t, runEvents es s = .next t :=
  everyRunOfStepsAnswersANextState _ _

/-- A run of more events goes on from where the run of the first of them ends. -/
theorem runEvents_append {es : List HostEvent} {s m : State} (h : runEvents es s = .next m) (later : List HostEvent) :
    runEvents (es ++ later) s = runEvents later m := by
  induction es generalizing s with
  | nil =>
    cases h
    rfl
  | cons e es ih =>
    obtain ⟨t, -, ht⟩ := serve_withPending e s
    rw [runEvents_cons (ht es)] at h
    rw [List.cons_append, runEvents_cons (ht (es ++ later))]
    exact ih h

/-- What relates the states before and after each event of a run relates those before and after the run, if it chains and
does not speak of the host's later events. -/
theorem runEvents_induction {R : State → State → Prop} (hrefl : ∀ s later, R s { s with pending := later })
    (htrans : ∀ s t u, R s t → R t u → R s u) {es : List HostEvent}
    (hserve : ∀ e ∈ es, ∀ s t, serve e s = .next t → R s t) {s t : State} (h : runEvents es s = .next t) : R s t := by
  induction es generalizing s with
  | nil =>
    cases h
    exact hrefl s []
  | cons e es ih =>
    obtain ⟨u, hu, -⟩ := serve_withPending e { s with pending := es }
    rw [runEvents_cons hu] at h
    have first : R s u := htrans _ _ _ (hrefl s es) (hserve e List.mem_cons_self _ _ hu)
    exact htrans _ _ _ first (ih (fun e he => hserve e (List.mem_cons_of_mem _ he)) h)

/-! ## Runs of commands -/

/-- Of the command words, only CONSTRUCT's make an engine write `POLY` or `CFG` (10_state.md R11, R16). -/
theorem serveCommand_keeps_poly_cfg {p : Presented} {s t : State} (hp : ∀ a, decode p.word ≠ .ok (.construct a))
    (h : serveCommand p s = .next t) : t.poly = s.poly ∧ t.cfg = s.cfg := by
  obtain ⟨-, hd⟩ | ⟨i, -, hd⟩ := decode_cases p.word
  · rw [serveCommand_of_illegal hd] at h
    cases h
    exact ⟨rfl, rfl⟩
  · rw [serveCommand_of_ok hd] at h
    have hi : ∀ a, i ≠ .construct a := fun a ha => hp a (ha ▸ hd)
    obtain ⟨hpoly, -, hcfg⟩ := exec_keeps_poly_table_cfg hi h
    exact ⟨hpoly, hcfg⟩

theorem runEvents_keeps_poly_cfg {ps : List Presented} (hps : ∀ p ∈ ps, ∀ a, decode p.word ≠ .ok (.construct a))
    {s t : State} (h : runEvents (ps.map .command) s = .next t) : t.poly = s.poly ∧ t.cfg = s.cfg := by
  refine runEvents_induction (R := fun s t => t.poly = s.poly ∧ t.cfg = s.cfg) (fun _ _ => ⟨rfl, rfl⟩)
    (fun s t u ⟨hpoly, hcfg⟩ ⟨hpoly', hcfg'⟩ => ⟨hpoly'.trans hpoly, hcfg'.trans hcfg⟩) (fun e he s t hst => ?_) h
  obtain ⟨p, hp, rfl⟩ := List.mem_map.mp he
  exact serveCommand_keeps_poly_cfg (hps p hp) hst

/-- No command clears `CFG` (R16), and while `CFG = 0` a command other than CONSTRUCT faults (60_exceptions.md R122,
R127): a command after which `CFG = 0` has changed no register. -/
theorem serveCommand_ending_unconfigured {p : Presented} {s t : State} (h : serveCommand p s = .next t)
    (ht : t.cfg = false) : SameEngine s t := by
  obtain ⟨-, hd⟩ | ⟨i, -, hd⟩ := decode_cases p.word
  · rw [serveCommand_of_illegal hd] at h
    cases h
    exact ⟨rfl, rfl, rfl, rfl⟩
  rw [serveCommand_of_ok hd] at h
  obtain ⟨a, rfl⟩ | hi := construct_or_not i
  · cases h
    cases ht
  · obtain ⟨-, -, hcfg⟩ := exec_keeps_poly_table_cfg hi h
    rw [exec_of_unconfigured (hcfg.symm.trans ht) hi] at h
    cases h
    exact ⟨rfl, rfl, rfl, rfl⟩

theorem sameEngine_symm {s t : State} (h : SameEngine s t) : SameEngine t s := by
  obtain ⟨hpoly, htable, hcrc, hcfg⟩ := h
  exact ⟨hpoly.symm, htable.symm, hcrc.symm, hcfg.symm⟩

theorem sameEngine_trans {s t u : State} (h : SameEngine s t) (h' : SameEngine t u) : SameEngine s u := by
  obtain ⟨hpoly, htable, hcrc, hcfg⟩ := h
  obtain ⟨hpoly', htable', hcrc', hcfg'⟩ := h'
  exact ⟨hpoly.trans hpoly', htable.trans htable', hcrc.trans hcrc', hcfg.trans hcfg'⟩

theorem runEvents_ending_unconfigured {es : List HostEvent} (hes : ∀ e ∈ es, ∃ q, e = .command q) {s t : State}
    (h : runEvents es s = .next t) (ht : t.cfg = false) : SameEngine s t := by
  refine runEvents_induction (R := fun s t => t.cfg = false → SameEngine s t) (fun _ _ _ => ⟨rfl, rfl, rfl, rfl⟩)
    (fun s t u hst htu hu => ?_) (fun e he s t hst => ?_) h ht
  · have second : SameEngine t u := htu hu
    have ⟨_, _, _, hcfg⟩ := second
    exact sameEngine_trans (hst (hcfg.trans hu)) second
  · obtain ⟨p, rfl⟩ := hes e he
    exact serveCommand_ending_unconfigured hst

end Sys2Proof.Machine
end

section
/-! PROOFS. 42_readout_reset.md R110, R112, R113, R114: the readouts, and RESET beside CONSTRUCT. -/

namespace Sys2Proof.Machine

open Sys2Proof.Safety

/-! ## VALUE and POLYNOMIAL -/

/-- Settles O33: VALUE on either side of the gate, its word by the decoder's law, the worked example evaluated. -/
theorem valueAnswersTheStoredChecksum : Obligations.ValueAnswersTheStoredChecksum := by
  refine ⟨fun s hc => exec_value_of_configured hc, fun s hc => exec_of_unconfigured hc nofun,
    fun a b => decode_commandWord 0x5 a b, fun s hc hcrc => ?_⟩
  have worked_example : responseWord .ok s.crc = 0x04F721A25 := by
    rw [hcrc]
    decide +kernel
  exact worked_example ▸ exec_value_of_configured hc

/-- Settles O35: POLYNOMIAL on either side of the gate; CONSTRUCT leaves its operand in `POLY`, which the commands after
it keep; and `TABLE[128]` is the generator's entry for the top bit (40_construct.md R77). -/
theorem polynomialAnswersTheOperandOfConstruct : Obligations.PolynomialAnswersTheOperandOfConstruct := by
  refine ⟨fun s hc => exec_polynomial_of_configured hc, fun s hc => exec_of_unconfigured hc nofun,
    fun a b => decode_commandWord 0x7 a b, fun a s ps hps => ?_,
    fun s hc htable => ((htable hc 128).trans (tgen_top s.poly)).symm⟩
  obtain ⟨u, hu⟩ := runEvents_answers (ps.map .command) ((s.load a (buildTable a)).respond .ok 0)
  obtain ⟨hpoly, hcfg⟩ := runEvents_keeps_poly_cfg hps hu
  have same_operand : u.poly = a := hpoly
  exact ⟨_, u, _, exec_construct a s, hu, exec_polynomial_of_configured hcfg, by rw [same_operand]; rfl⟩

/-! ## RESET -/

/-- R113: of what CONSTRUCT with the same polynomial loads, all but `CRC` stands there already, `TABLE` by the table
invariant. -/
theorem load_same_poly {s : State} (hc : s.cfg = true) (htable : TableInv s) :
    s.load s.poly (buildTable s.poly) = s.writeCrc 0 := by
  rw [State.load, ← eq_buildTable (htable hc), ← hc, State.writeCrc]

/-- Settles O36: `load_same_poly`, and the second of two RESETs finds `CRC = 0`. -/
theorem resetActsAsConstructWithTheSamePolynomial : Obligations.ResetActsAsConstructWithTheSamePolynomial := by
  refine ⟨fun s hc htable => ?_, fun s hc => ?_⟩
  · rw [exec_reset_of_configured hc, exec_construct, load_same_poly hc htable]
  · exact ⟨_, _, exec_reset_of_configured hc, exec_reset_of_configured hc, rfl, rfl, rfl, rfl⟩

/-! ## Readouts inserted into a run -/

/-- A readout writes no state: all it does is answer one response, in every state. -/
theorem exec_readout {i : Instr} (hi : i = .value ∨ i = .polynomial) (s : State) :
    ∃ st data, exec i s = .next (s.respond st data) := by
  have no_construct : ∀ a, i ≠ .construct a := by obtain rfl | rfl := hi <;> exact nofun
  obtain ⟨crc, st, data, hcrc, he⟩ := exec_eq_writeCrc_respond s no_construct
  rw [hcrc (writesCrc_of_readout hi)] at he
  exact ⟨st, data, he⟩

/-- A run that a readout begins is the run without it from an engine with the same registers and one response more. -/
theorem runEvents_readout {p : Presented} (hp : decode p.word = .ok .value ∨ decode p.word = .ok .polynomial)
    (rest : List HostEvent) (s : State) :
    ∃ s' r, runEvents (.command p :: rest) s = runEvents rest s' ∧ SameEngine s' s ∧
      s'.responses = s.responses ++ [r] := by
  obtain ⟨i, hi, hd⟩ : ∃ i, (i = .value ∨ i = .polynomial) ∧ decode p.word = .ok i := by
    obtain hd | hd := hp
    · exact ⟨_, .inl rfl, hd⟩
    · exact ⟨_, .inr rfl, hd⟩
  obtain ⟨st, data, he⟩ := exec_readout hi ({ s with pending := rest }.present p)
  exact ⟨_, _, runEvents_command hd he, ⟨rfl, rfl, rfl, rfl⟩, rfl⟩

/-- Two engines with the same registers serve the same events alike: once configured they cannot be told apart, and if a
run of commands ends with `CFG = 0` it has changed no register of either. -/
theorem runEvents_sameEngine (es : List HostEvent) {s s' : State} (h : SameEngine s s') :
    ∃ t t' added, runEvents es s = .next t ∧ runEvents es s' = .next t' ∧
      t.responses = s.responses ++ added ∧ t'.responses = s'.responses ++ added ∧
      t.cfg = t'.cfg ∧ (t.cfg = true → SameEngine t t') ∧
      ((∀ e ∈ es, ∃ q, e = .command q) → SameEngine t t') := by
  have ⟨_, _, _, same_cfg⟩ := h
  have agree : Agree { s with pending := es } { s' with pending := es } := ⟨rfl, same_cfg, fun _ => h⟩
  obtain ⟨t, t', added, ht, ht', ⟨-, hcfg, hreg⟩, hr, hr'⟩ := run_answersAlike es.length agree
  refine ⟨t, t', added, ht, ht', hr, hr', hcfg, hreg, fun hes => ?_⟩
  obtain hc | hc := Bool.eq_false_or_eq_true t.cfg
  · exact hreg hc
  · have kept : SameEngine s t := runEvents_ending_unconfigured hes ht hc
    have kept' : SameEngine s' t' := runEvents_ending_unconfigured hes ht' (hcfg.symm.trans hc)
    exact sameEngine_trans (sameEngine_symm kept) (sameEngine_trans h kept')

/-- Settles O37: up to the readout the runs are one, and after it they go on from engines with the same registers. -/
theorem readoutsDoNotDisturb : Obligations.ReadoutsDoNotDisturb := by
  intro s before after p hp
  obtain ⟨m, hm⟩ := runEvents_answers before s
  obtain ⟨m', r, hreadout, hsame, hresponse⟩ := runEvents_readout hp after m
  obtain ⟨t, u, later, ht, hu, htr, hur, hcfg, hconfigured, hcommands⟩ := runEvents_sameEngine after hsame
  refine ⟨m, t, u, r, later, hm, (runEvents_append hm _).trans (hreadout.trans ht), (runEvents_append hm after).trans hu,
    ?_, hur, hcfg, hconfigured, fun hall => hcommands fun e he => hall e (List.mem_append_right before he)⟩
  rw [htr, hresponse, List.append_assoc, List.singleton_append]

end Sys2Proof.Machine
end

section
/-! PROOFS. 60_exceptions.md R122 to R133: the faults, and what they and the record of responses leave untouched. -/

namespace Sys2Proof.Machine

open Sys2Proof.Safety

/-- Settles O10: a step with no event to serve. -/
theorem idleEngineStaysAsItIs : Obligations.IdleEngineStaysAsItIs :=
  fun _ hp => step_of_idle hp

/-- Settles O38: every command but CONSTRUCT stands behind the gate on `CFG`. -/
theorem notConfiguredBeforeConstruct : Obligations.NotConfiguredBeforeConstruct :=
  fun _ _ hc hi => exec_of_unconfigured hc hi

/-- Settles O39: the status of the response that the word's fields give. -/
theorem faultPriority : Obligations.FaultPriority := by
  intro s p rest hp
  obtain ⟨t, ht, hr⟩ := step_respondsAsExpected hp
  exact ⟨t, expectedData p s, ht, hr⟩

/-! ## A command completes, or faults and does nothing else (R127) -/

/-- A command completes with status OK, or it is refused: by the gate on `CFG` (R122) or the bounds check (R121), neither
of which writes a register or looks at a byte of the buffer. -/
theorem exec_completes_or_faults (i : Instr) (s : State) :
    (∃ (u : State) (data : Word), exec i s = .next (u.respond .ok data) ∧ u.responses = s.responses) ∨
      ∃ st, st ≠ .ok ∧ ∀ mem, exec i { s with mem := mem } = .next ({ s with mem := mem }.respond st 0) := by
  obtain ⟨a, rfl⟩ | hi := construct_or_not i
  · exact .inl ⟨_, _, exec_construct a s, rfl⟩
  obtain hc | hc := Bool.eq_false_or_eq_true s.cfg
  · cases i with
    | construct a => exact absurd rfl (hi a)
    | updateByte bt => exact .inl ⟨_, _, exec_updateByte_of_configured hc bt, rfl⟩
    | updateRange off len =>
      by_cases hb : off.toNat + len.toNat ≤ s.bufLen.toNat
      · exact .inl ⟨_, _, exec_updateRange_inside hc hb, rfl⟩
      · exact .inr ⟨.boundsViolation, nofun, fun mem => exec_updateRange_outside (s := { s with mem := mem }) hc hb⟩
    | updateAll => exact .inl ⟨_, _, exec_updateAll_of_configured hc, rfl⟩
    | value => exact .inl ⟨_, _, exec_value_of_configured hc, rfl⟩
    | reset => exact .inl ⟨_, _, exec_reset_of_configured hc, rfl⟩
    | polynomial => exact .inl ⟨_, _, exec_polynomial_of_configured hc, rfl⟩
  · exact .inr ⟨.notConfigured, nofun, fun mem => exec_of_unconfigured (s := { s with mem := mem }) hc hi⟩

/-- The same of a command word, which the decoder may refuse before all else (R123, R126). -/
theorem serveCommand_completes_or_faults (p : Presented) (s : State) :
    (∃ (u : State) (data : Word), serveCommand p s = .next (u.respond .ok data) ∧ u.responses = s.responses) ∨
      ∃ st, st ≠ .ok ∧ ∀ mem, serveCommand { p with mem := mem } s =
        .next ((s.present { p with mem := mem }).respond st 0) := by
  obtain ⟨-, hd⟩ | ⟨i, -, hd⟩ := decode_cases p.word
  · exact .inr ⟨.illegalCommand, nofun, fun mem => serveCommand_of_illegal (p := { p with mem := mem }) hd s⟩
  · obtain ⟨u, data, he, hu⟩ | ⟨st, hst, hfault⟩ := exec_completes_or_faults i (s.present p)
    · exact .inl ⟨u, data, (serveCommand_of_ok hd s).trans he, hu⟩
    · exact .inr ⟨st, hst, fun mem => (serveCommand_of_ok (p := { p with mem := mem }) hd s).trans (hfault mem)⟩

/-- Settles O40: a command that completes has status OK, so this one faults, and does so whatever the bytes are. -/
theorem faultingCommandChangesNothing : Obligations.FaultingCommandChangesNothing := by
  intro s p rest t r hp ht hr hst
  have hserve : serveCommand p { s with pending := rest } = .next t := (step_of_pending hp).symm.trans ht
  obtain ⟨u, data, he, hu⟩ | ⟨st, -, hfault⟩ := serveCommand_completes_or_faults p { s with pending := rest }
  · cases he.symm.trans hserve
    have hok : responseWord .ok data = r := by simpa [hu] using hr
    rw [← hok, statusField_responseWord] at hst
    exact absurd rfl hst
  · cases (hfault p.mem).symm.trans hserve
    have hword : responseWord st 0 = r := by simpa using hr
    subst hword
    refine ⟨dataField_responseWord st 0, ⟨rfl, rfl, rfl, rfl⟩, rfl, fun mem => ?_⟩
    rw [step_of_pending rfl]
    exact hfault mem

/-! ## The record of responses is written and never read (R128) -/

/-- From `s` the operation answers a next state, with some responses added to the record; from `s` with any other record
it adds the same ones to that record and answers the same state otherwise. -/
def OnlyAddsToRecord (run : State → Host.Outcome State Fault Refusal) (s : State) : Prop :=
  ∃ t added, run s = .next t ∧ t.responses = s.responses ++ added ∧
    ∀ record, run { s with responses := record } = .next { t with responses := record ++ added }

theorem exec_onlyAddsToRecord (i : Instr) (s : State) : OnlyAddsToRecord (exec i) s := by
  obtain ⟨a, rfl⟩ | hi := construct_or_not i
  · exact ⟨_, _, exec_construct a s, rfl, fun _ => exec_construct a _⟩
  obtain hc | hc := Bool.eq_false_or_eq_true s.cfg
  · obtain ⟨crc, st, data, -, hexec⟩ := exec_of_configured hc hi
    exact ⟨_, _, hexec s.responses s.draws, rfl, fun record => hexec record s.draws⟩
  · exact ⟨_, _, exec_of_unconfigured hc hi, rfl,
      fun record => exec_of_unconfigured (s := { s with responses := record }) hc hi⟩

theorem serve_onlyAddsToRecord (e : HostEvent) (s : State) : OnlyAddsToRecord (serve e) s := by
  cases e with
  | command p =>
    obtain ⟨-, hd⟩ | ⟨i, -, hd⟩ := decode_cases p.word
    · exact ⟨_, _, serveCommand_of_illegal hd s, rfl, fun _ => serveCommand_of_illegal hd _⟩
    · obtain ⟨t, added, ht, hr, hrecord⟩ := exec_onlyAddsToRecord i (s.present p)
      exact ⟨t, added, (serveCommand_of_ok hd s).trans ht, hr,
        fun record => (serveCommand_of_ok hd _).trans (hrecord record)⟩
  | hardwareReset => exact ⟨_, [], rfl, (List.append_nil _).symm, fun record => by rw [List.append_nil]; rfl⟩
  | resetDuring p => exact ⟨_, [], rfl, (List.append_nil _).symm, fun record => by rw [List.append_nil]; rfl⟩

theorem step_onlyAddsToRecord (s : State) : OnlyAddsToRecord step s := by
  cases hp : s.pending with
  | nil =>
    exact ⟨s, [], step_of_idle hp, (List.append_nil _).symm, fun record => by
      rw [List.append_nil]
      exact step_of_idle hp⟩
  | cons e rest =>
    obtain ⟨t, added, ht, hr, hrecord⟩ := serve_onlyAddsToRecord e { s with pending := rest }
    exact ⟨t, added, (step_of_pending hp).trans ht, hr,
      fun record => (step_of_pending (s := { s with responses := record }) hp).trans (hrecord record)⟩

/-- Settles O41: the next states differ in the record only. -/
theorem responsesAreNeverRead : Obligations.ResponsesAreNeverRead := by
  intro s
  obtain ⟨t, added, ht, hr, hrecord⟩ := step_onlyAddsToRecord s
  exact ⟨t, added, ht, hr, fun record => ⟨_, hrecord record, rfl, rfl, rfl, rfl, rfl, fun _ => rfl⟩⟩

end Sys2Proof.Machine
end

section
/-! PROOFS. 70_reset_and_hazards.md R140: hardware reset, between commands and during one. -/

namespace Sys2Proof.Machine

/-- A step that serves a hardware reset between commands resets the engine and does nothing else (R140). -/
theorem step_of_hardwareReset {s : State} {rest : List HostEvent} (hp : s.pending = .hardwareReset :: rest) :
    step s = .next { s with pending := rest }.hardwareReset :=
  step_of_pending hp

/-- A command cut short by a hardware reset leaves its buffer on the port and the reset, nothing of its own (R140). -/
theorem step_of_resetDuring {s : State} {p : Presented} {rest : List HostEvent}
    (hp : s.pending = .resetDuring p :: rest) :
    step s = .next ({ s with pending := rest }.present p).hardwareReset :=
  step_of_pending hp

/-- Settles O12: both events end in `State.hardwareReset`, which clears `CFG` and leaves the responses and the host's
later events. -/
theorem hardwareResetClearsConfigured : Obligations.HardwareResetClearsConfigured := by
  rintro s rest e hp (rfl | ⟨p, rfl⟩)
  · exact ⟨_, step_of_hardwareReset hp, State.hardwareReset_cfg _, State.hardwareReset_responses _,
      State.hardwareReset_pending _⟩
  · exact ⟨_, step_of_resetDuring hp, State.hardwareReset_cfg _, State.hardwareReset_responses _,
      State.hardwareReset_pending _⟩

end Sys2Proof.Machine
end
